-- ==== Sys2Proof/Word.lean ====
section
/-! DEFINITION. The word: the one unit of storage, register content and instruction encoding. -/

namespace Sys2Proof

/-- An unsigned 16-bit integer, "the universal unit of storage, register content, and instruction
encoding" (00_scope.md R10). -/
abbrev Word := BitVec 16

end Sys2Proof
end

