-- ==== Sys2Proof/Syntax.lean ====
section
/-! DEFINITION. The instructions as the decoder gives them: one constructor per instruction of the opcode
map (30_encoding.md R85), and `invalid` for the two reserved rows, which share one verdict (R89; log 5). -/

namespace Sys2Proof

/-- A register index, "4-bit operand fields" (10_state.md R21); every value names a register (R28). -/
abbrev Reg := BitVec 4

/-- Register 13, FLAGS (10_state.md R22). -/
def flagsReg : Reg := 13

/-- Register 14, the program counter (10_state.md R22). -/
def pcReg : Reg := 14

/-- Register 15, the stack pointer (10_state.md R22). -/
def spReg : Reg := 15

/-- A decoded instruction, "a closed set of tagged variants" (30_encoding.md R89). `rd` is the register
named by `reg0`, `rs` the one named by `reg1` (R82). A signed offset is kept as its eight bits; the machine
reads them as two's complement (R84; log 14). -/
inductive Instr where
  | nop
  | push (rd : Reg)
  | pop (rd : Reg)
  | pusha
  | popa
  | move (rd rs : Reg)
  | load (rd rs : Reg)
  | save (rd rs : Reg)
  | add (rd rs : Reg)
  | sub (rd rs : Reg)
  | mul (rd rs : Reg)
  | div (rd rs : Reg)
  | cmpeq (rd rs : Reg)
  | cmpne (rd rs : Reg)
  | cmpgt (rd rs : Reg)
  | cmplt (rd rs : Reg)
  | lxor (rd rs : Reg)
  | lnot (rd : Reg)
  | jump (rd : Reg) (cond4 : BitVec 4)
  | int (imm8 : BitVec 8)
  | invalid (word : Word)
  | shl (rd rs : Reg)
  | shr (rd rs : Reg)
  | not (rd : Reg)
  | xor (rd rs : Reg)
  | and (rd rs : Reg)
  | or (rd rs : Reg)
  | nor (rd rs : Reg)
  | loadr (off8 : BitVec 8)
  | jumpr (off8 : BitVec 8) (cond3 : BitVec 3)
  | saver (off8 : BitVec 8)
  deriving DecidableEq, Repr

end Sys2Proof
end

