-- ==== Sys2Proof/WellFormed.lean ====
section
/-! DEFINITION. Which instruction values the decoder can give. -/

namespace Sys2Proof

/-- A reserved word: one whose opcode field `w[4:0] = w mod 32` is 20 or 31 (00_scope.md R11; 30_encoding.md
R92). -/
def reservedWord (w : Word) : Bool := w.toNat % 32 == 20 || w.toNat % 32 == 31

/-- The only operand with an illegal value is the word of an INVALID: "Every register index 0 to 15 and
every arg value 0 to 255 is legal in every instruction that has the field" and every condition code
decodes (30_encoding.md R93), while an INVALID carries a reserved word (R92). -/
def Instr.wellFormed : Instr → Bool
  | .invalid w => reservedWord w
  | .nop | .push _ | .pop _ | .pusha | .popa | .move _ _ | .load _ _ | .save _ _
  | .add _ _ | .sub _ _ | .mul _ _ | .div _ _
  | .cmpeq _ _ | .cmpne _ _ | .cmpgt _ _ | .cmplt _ _ | .lxor _ _ | .lnot _
  | .jump _ _ | .int _ | .shl _ _ | .shr _ _
  | .not _ | .xor _ _ | .and _ _ | .or _ _ | .nor _ _
  | .loadr _ | .jumpr _ _ | .saver _ => true

end Sys2Proof
end

