-- ==== Sys2Proof/Decode.lean ====
section
/-! DEFINITION. The codec: `decode` from a word to an instruction, total and never refusing (30_encoding.md
R89: INVALID is the named verdict for a reserved word), then `encode` back to the canonical word (R90). -/

namespace Sys2Proof

/-- The opcode field, bits 4:0 (30_encoding.md R81). -/
def opcodeOf (w : Word) : BitVec 5 := w.extractLsb' 0 5

/-- `reg0`, bits 8:5 (30_encoding.md R81, R82). -/
def reg0Of (w : Word) : Reg := w.extractLsb' 5 4

/-- `reg1`, bits 12:9 (30_encoding.md R81, R82). -/
def reg1Of (w : Word) : Reg := w.extractLsb' 9 4

/-- The condition field of JUMP, in the `reg1` position, bits 12:9 (30_encoding.md R86; decision D2, log 8). -/
def cond4Of (w : Word) : BitVec 4 := w.extractLsb' 9 4

/-- The condition field of JUMPR, bits 7:5 (30_encoding.md R83). -/
def cond3Of (w : Word) : BitVec 3 := w.extractLsb' 5 3

/-- `arg`, bits 15:8 (30_encoding.md R84). -/
def argOf (w : Word) : BitVec 8 := w.extractLsb' 8 8

/-- The instruction a word stands for: the opcode selects it and the fields of its own format fill it
(30_encoding.md R85, R87, R89). Bits outside the format are ignored (R88; decision D9, log 15). -/
def decode (w : Word) : Instr :=
  match (opcodeOf w).toNat with
  | 0 => .nop
  | 1 => .push (reg0Of w)
  | 2 => .pop (reg0Of w)
  | 3 => .pusha
  | 4 => .popa
  | 5 => .move (reg0Of w) (reg1Of w)
  | 6 => .load (reg0Of w) (reg1Of w)
  | 7 => .save (reg0Of w) (reg1Of w)
  | 8 => .add (reg0Of w) (reg1Of w)
  | 9 => .sub (reg0Of w) (reg1Of w)
  | 10 => .mul (reg0Of w) (reg1Of w)
  | 11 => .div (reg0Of w) (reg1Of w)
  | 12 => .cmpeq (reg0Of w) (reg1Of w)
  | 13 => .cmpne (reg0Of w) (reg1Of w)
  | 14 => .cmpgt (reg0Of w) (reg1Of w)
  | 15 => .cmplt (reg0Of w) (reg1Of w)
  | 16 => .lxor (reg0Of w) (reg1Of w)
  | 17 => .lnot (reg0Of w)
  | 18 => .jump (reg0Of w) (cond4Of w)
  | 19 => .int (argOf w)
  | 21 => .shl (reg0Of w) (reg1Of w)
  | 22 => .shr (reg0Of w) (reg1Of w)
  | 23 => .not (reg0Of w)
  | 24 => .xor (reg0Of w) (reg1Of w)
  | 25 => .and (reg0Of w) (reg1Of w)
  | 26 => .or (reg0Of w) (reg1Of w)
  | 27 => .nor (reg0Of w) (reg1Of w)
  | 28 => .loadr (argOf w)
  | 29 => .jumpr (argOf w) (cond3Of w)
  | 30 => .saver (argOf w)
  | _ => .invalid w

/-- A field placed with its lowest bit at bit `lo` of an otherwise zero word, the `v << lo` of the spec's
words such as `8 | rd<<5 | rs<<9` (41_arithmetic.md R130). -/
def place {n : Nat} (v : BitVec n) (lo : Nat) : Word := v.setWidth 16 <<< lo

/-- A word of format Z: opcode only, ignored bits 0 (30_encoding.md R87, R90). -/
def encodeZ (op : BitVec 5) : Word := place op 0

/-- A word of format R: `rd` in bits 8:5 (30_encoding.md R87, R90). -/
def encodeR (op : BitVec 5) (rd : Reg) : Word := place op 0 ||| place rd 5

/-- A word of format RR or RC: the first operand in bits 8:5, the second in bits 12:9
(30_encoding.md R87, R90). -/
def encodeRR (op : BitVec 5) (rd second : BitVec 4) : Word := place op 0 ||| place rd 5 ||| place second 9

/-- A word of format I or S: `arg` in bits 15:8 (30_encoding.md R87, R90). -/
def encodeI (op : BitVec 5) (arg : BitVec 8) : Word := place op 0 ||| place arg 8

/-- A word of format SC: `arg` in bits 15:8, the condition in bits 7:5 (30_encoding.md R87, R90). -/
def encodeSC (op : BitVec 5) (arg : BitVec 8) (c : BitVec 3) : Word :=
  place op 0 ||| place c 5 ||| place arg 8

/-- The canonical word of an instruction; an INVALID "canonicalizes to the no-op word"
(30_encoding.md R90). -/
def encode : Instr → Word
  | .nop => encodeZ 0
  | .push rd => encodeR 1 rd
  | .pop rd => encodeR 2 rd
  | .pusha => encodeZ 3
  | .popa => encodeZ 4
  | .move rd rs => encodeRR 5 rd rs
  | .load rd rs => encodeRR 6 rd rs
  | .save rd rs => encodeRR 7 rd rs
  | .add rd rs => encodeRR 8 rd rs
  | .sub rd rs => encodeRR 9 rd rs
  | .mul rd rs => encodeRR 10 rd rs
  | .div rd rs => encodeRR 11 rd rs
  | .cmpeq rd rs => encodeRR 12 rd rs
  | .cmpne rd rs => encodeRR 13 rd rs
  | .cmpgt rd rs => encodeRR 14 rd rs
  | .cmplt rd rs => encodeRR 15 rd rs
  | .lxor rd rs => encodeRR 16 rd rs
  | .lnot rd => encodeR 17 rd
  | .jump rd c => encodeRR 18 rd c
  | .int imm => encodeI 19 imm
  | .invalid _ => 0
  | .shl rd rs => encodeRR 21 rd rs
  | .shr rd rs => encodeRR 22 rd rs
  | .not rd => encodeR 23 rd
  | .xor rd rs => encodeRR 24 rd rs
  | .and rd rs => encodeRR 25 rd rs
  | .or rd rs => encodeRR 26 rd rs
  | .nor rd rs => encodeRR 27 rd rs
  | .loadr off => encodeI 28 off
  | .jumpr off c => encodeSC 29 off c
  | .saver off => encodeI 30 off

/-- The instruction word whose low `nbits` bits are `w`'s and whose other bits are 0. -/
def tableWord (nbits w : Nat) : Word := BitVec.ofNat 16 (w % 2 ^ nbits)

/-- What the decoder reads from the instruction numbered as spec/opcode_table.json numbers its bits: an
instruction is exactly one word, whose bit 0 is the table's bit 0 (30_encoding.md R80, R81), and no word is
refused (R89). -/
def decodeTableWord (nbits w : Nat) : Option Instr := some (decode (tableWord nbits w))

end Sys2Proof
end

