-- ==== Sys2Proof/Config.lean ====
section
/-! DEFINITION. What is fixed for the hardware, and the RESET arguments that `State.reset` takes. The
machine has no free value: every open point of the source is settled by a numbered rule. -/

namespace Sys2Proof.Config

/-- The largest legal MEM_LEN (00_scope.md R5; decision D16, log 22). -/
def maxMemLen : Nat := 65536

/-- The largest legal STACK_LEN (00_scope.md R5; decision D16, log 22). -/
def maxStackLen : Nat := 65535

/-- How many registers PUSHA and POPA move: r0 to r12 (00_scope.md R6; 47_stack.md R198). -/
def blockSize : Nat := 13

/-- What a cell that a memory does not list reads as: the zero word, so that a memory with nothing
listed is a memory of zero words. DESIGN CHOICE, unsafe (log 2). -/
def unlistedWord : Word := 0

/-- MEM_LEN of `State.reset`. DESIGN CHOICE, unsafe: MEM_LEN is the host's argument (00_scope.md R5; log 3). -/
def resetMemLen : Nat := 65536

/-- STACK_LEN of `State.reset`. DESIGN CHOICE, unsafe: STACK_LEN is the host's argument (00_scope.md R5; log 3). -/
def resetStackLen : Nat := 65535

/-- INITIAL_PC of `State.reset`. DESIGN CHOICE, unsafe: INITIAL_PC is the host's argument (10_state.md R40; log 3). -/
def resetInitialPc : Word := 0

end Sys2Proof.Config
end

