-- ==== Sys2Proof/Machine/State.lean ====
section
/-! DEFINITION. The machine's state as plain data, the faults a step returns to the host, and the state
right after RESET. -/

namespace Sys2Proof.Machine

/-- The closed list of faults (60_exceptions.md R220). On this machine a fault is "returned to the host by
the step that raised it" and never stops the core (R229, R233), so a step carries it in `State.result` of a
NEXT state; no step ends in `Host.Outcome.fault` (log 6). Safe: nothing is cut off, the run goes on as the
spec says. -/
inductive Fault where
  /-- A single-word access at `pos` in a block of `length` words, `pos ≥ length` (R221). Raised by the
  instruction fetch, LOAD, SAVE, LOADR, SAVER and a host single-word access. Safe: the step goes on. -/
  | pointerOutOfRange (length pos : Nat)
  /-- A range access whose end lies beyond the block (R222). Raised by a host range access only; the stack
  instructions replace it. Safe: the access writes nothing. -/
  | pointerRangeOverflow (length pos requestedEnd : Nat)
  /-- A push that does not fit the stack memory (R223). Raised by PUSH, PUSHA. Safe: the step goes on. -/
  | stackOverflow
  /-- A pop of more words than SP counts (R224). Raised by POP, POPA. Safe: the step goes on. -/
  | stackUnderflow
  /-- A condition code above 3 (R225). Raised by JUMP, JUMPR. Safe: the step goes on. -/
  | invalidJumpCondition (code : Nat)
  /-- A pop whose SP lies beyond the stack memory (R227); its `reason` has no architectural content, so
  there is no payload (decision D17, log 23). Raised by POP, POPA. Safe: the step goes on. -/
  | unreachable
  /-- A zero divisor (R228). Raised by DIV. Safe: the step goes on. -/
  | divisionByZero
  deriving DecidableEq, Repr

/-- Why the model would give an instruction no meaning. Every instruction has one, so nothing answers it. -/
inductive Refusal where
  /-- Raised by no arm: every instruction of the table has its meaning. Safe: a refusal claims nothing. -/
  | notModelled (mnemonic : String)
  deriving DecidableEq, Repr

/-- What STEP returns to the host: success, or exactly one fault (00_scope.md R7; 40_step_cycle.md R110, R114). -/
inductive StepResult where
  | ok
  | fault (f : Fault)
  deriving DecidableEq, Repr

/-- A memory block (20_memory.md R50): its length in words, and its words as a list of (address, word)
pairs, addresses rising, holding no word that an unlisted address reads as (log 2). -/
structure Memory where
  length : Nat
  cells : List (Nat × Word)
  deriving DecidableEq, Repr

/-- The architectural state: the register file of 16 words and the two memories (10_state.md R20), with the
model's own field for what the last STEP returned to the host (log 1). -/
structure State where
  /-- `x[0]` to `x[15]`; FLAGS, PC and SP are registers 13, 14 and 15 (10_state.md R21, R22). -/
  regs : Vector Word 16
  /-- Main memory, program and data (10_state.md R31). -/
  main : Memory
  /-- The private stack memory (10_state.md R32). -/
  stack : Memory
  /-- The model's own field: the value the last STEP returned to the host. No step reads it. -/
  result : StepResult
  deriving DecidableEq, Repr

/-- The machine right after RESET (70_reset_and_hazards.md R260; 10_state.md R40 to R44): every register 0 but
PC, which holds INITIAL_PC; the stack memory all zero. The arguments of this RESET (MEM_LEN, MEM_INIT,
INITIAL_PC, STACK_LEN) are the host's; the ones taken here are a DESIGN CHOICE, unsafe (log 3). -/
def State.reset : State where
  regs := (Vector.replicate 16 0).set 14 Config.resetInitialPc
  main := ⟨Config.resetMemLen, []⟩
  stack := ⟨Config.resetStackLen, []⟩
  result := .ok

end Sys2Proof.Machine
end

