-- ==== Sys2Proof/Machine/Ops.lean ====
section
/-! DEFINITION. The named operations over memory and registers, how an instruction completes or raises a
fault, and the parts of the step around `Execute`. -/

namespace Sys2Proof.Machine

/-- What a meaning or a step answers. -/
abbrev Result := Host.Outcome State Fault Refusal

/-! ### The memory block (20_memory.md section 1) -/

/-- The word a listing holds at an address; what it does not list reads as `Config.unlistedWord`. -/
def lookupCell : List (Nat × Word) → Nat → Word
  | [], _ => Config.unlistedWord
  | (a, w) :: rest, p => if a = p then w else lookupCell rest p

/-- A listing with one more word in front, unless that word is what an unlisted address reads as. -/
def consCell (p : Nat) (v : Word) (rest : List (Nat × Word)) : List (Nat × Word) :=
  if v = Config.unlistedWord then rest else (p, v) :: rest

/-- A listing with the word at one address replaced, in the canonical form. -/
def insertCell : List (Nat × Word) → Nat → Word → List (Nat × Word)
  | [], p, v => consCell p v []
  | (a, w) :: rest, p, v =>
    if p < a then consCell p v ((a, w) :: rest)
    else if p = a then consCell p v rest
    else (a, w) :: insertCell rest p v

/-- A listing with the words `vs` stored from address `p` upward (20_memory.md R54). -/
def insertCells : List (Nat × Word) → Nat → List Word → List (Nat × Word)
  | cells, _, [] => cells
  | cells, p, v :: vs => insertCells (insertCell cells p v) (p + 1) vs

/-- The `count` words from address `p` upward (20_memory.md R53). -/
def lookupCells (cells : List (Nat × Word)) : Nat → Nat → List Word
  | _, 0 => []
  | p, count + 1 => lookupCell cells p :: lookupCells cells (p + 1) count

/-- The listing's addresses rise strictly from `lo`, stay below `len`, and hold no unlisted word. -/
def cellsWf (len : Nat) : Nat → List (Nat × Word) → Bool
  | _, [] => true
  | lo, (a, w) :: rest =>
    decide (lo ≤ a) && decide (a < len) && decide (w ≠ Config.unlistedWord) && cellsWf len (a + 1) rest

/-- The canonical form of a block: equal contents are equal data (log 2). -/
def Memory.wf (m : Memory) : Bool := cellsWf m.length 0 m.cells

/-- The word in cell `a` of a block (20_memory.md R50), for an address below its length. -/
def Memory.cell (m : Memory) (a : Nat) : Word := lookupCell m.cells a

/-- `get(pos)` (20_memory.md R51). -/
def Memory.get (m : Memory) (pos : Nat) : Except Fault Word :=
  if pos < m.length then .ok (m.cell pos) else .error (.pointerOutOfRange m.length pos)

/-- `set(pos, value)` (20_memory.md R52). -/
def Memory.set (m : Memory) (pos : Nat) (v : Word) : Except Fault Memory :=
  if pos < m.length then .ok { m with cells := insertCell m.cells pos v }
  else .error (.pointerOutOfRange m.length pos)

/-- `get_range(pos, count)`; the sum is not wrapped (20_memory.md R53). -/
def Memory.getRange (m : Memory) (pos count : Nat) : Except Fault (List Word) :=
  if pos + count > m.length then .error (.pointerRangeOverflow m.length pos (pos + count))
  else .ok (lookupCells m.cells pos count)

/-- `set_range(pos, values)`: all of the window or nothing (20_memory.md R54). -/
def Memory.setRange (m : Memory) (pos : Nat) (vs : List Word) : Except Fault Memory :=
  if pos + vs.length > m.length then .error (.pointerRangeOverflow m.length pos (pos + vs.length))
  else .ok { m with cells := insertCells m.cells pos vs }

/-- A block of the given words, in order from address 0 (00_scope.md R5, MEM_INIT). -/
def Memory.ofWords (ws : List Word) : Memory := ⟨ws.length, insertCells [] 0 ws⟩

/-! ### Registers (10_state.md section 2) -/

/-- Read of `x[r]`; no register is special (10_state.md R21, R28). -/
def State.reg (s : State) (r : Reg) : Word := s.regs[r.toNat]

/-- Write of `x[r]`: all 16 bits, any register (10_state.md R21, R28). -/
def State.setReg (s : State) (r : Reg) (v : Word) : State := { s with regs := s.regs.set r.toNat v }

/-- `pc`, another name for `x[14]` (00_scope.md R12). -/
def State.pc (s : State) : Word := s.reg pcReg

/-- `sp`, another name for `x[15]` (00_scope.md R12). -/
def State.sp (s : State) : Word := s.reg spReg

/-- `flags`, another name for `x[13]` (00_scope.md R12). -/
def State.flags (s : State) : Word := s.reg flagsReg

/-- `pc <- t` (00_scope.md R12). -/
def State.setPc (s : State) (v : Word) : State := s.setReg pcReg v

/-- `x[15] <- v`. -/
def State.setSp (s : State) (v : Word) : State := s.setReg spReg v

/-- `x[13] <- v`. -/
def State.setFlags (s : State) (v : Word) : State := s.setReg flagsReg v

/-- The state with another main memory. -/
def State.setMain (s : State) (m : Memory) : State := { s with main := m }

/-- The state with another stack memory. -/
def State.setStack (s : State) (m : Memory) : State := { s with stack := m }

/-- The state with another value returned to the host. -/
def State.setResult (s : State) (r : StepResult) : State := { s with result := r }

/-- The values of `n` registers from index `i` upward. -/
def State.regsFrom (s : State) : Nat → Nat → List Word
  | _, 0 => []
  | i, n + 1 => s.reg (BitVec.ofNat 4 i) :: s.regsFrom (i + 1) n

/-- The registers from index `i` upward written with the words of a list. -/
def State.setRegsFrom (s : State) : Nat → List Word → State
  | _, [] => s
  | i, v :: vs => (s.setReg (BitVec.ofNat 4 i) v).setRegsFrom (i + 1) vs

/-! ### How `Execute` ends (40_step_cycle.md R113, R114) -/

/-- `Execute` raised nothing: the step's result is Ok (40_step_cycle.md R114). -/
def complete (s : State) : Result := .next (s.setResult .ok)

/-- TAKING A FAULT, the one operation: the instruction stops, has written nothing, and the step's result is
the fault (40_step_cycle.md R113). There is no handler, vector, saved register or mode (60_exceptions.md R229);
the step's final increment is the only effect that follows. There is no return from a fault (R233). -/
def raise (f : Fault) (s : State) : Result := .next (s.setResult (.fault f))

/-! ### The step around `Execute` (40_step_cycle.md section 1) -/

/-- The fetch: one word of main memory at PC (40_step_cycle.md R111). -/
def fetch (s : State) : Except Fault Word := s.main.get s.pc.toNat

/-- A failed fetch: PC is forced to the sentinel 0xFFFF and the step's result is the memory's error
(40_step_cycle.md R112; decision D26, log 29). -/
def failFetch (f : Fault) (s : State) : Result := raise f (s.setPc 0xFFFF)

/-- The unconditional final increment of PC, wrapping (40_step_cycle.md R115). -/
def advance (s : State) : State := s.setPc (s.pc + 1)

/-- The end of a step: whatever `Execute` answered, PC is incremented (40_step_cycle.md R110, R115). -/
def finish : Result → Result
  | .next s => .next (advance s)
  | .fault f => .fault f
  | .refused r => .refused r

/-! ### RESET and the placing of an instruction -/

/-- RESET(main_memory, initial_pc, stack_size) (70_reset_and_hazards.md R260): PC holds INITIAL_PC (10_state.md
R40), every other register is 0 (R41, R42), main memory is the one supplied (R43), the stack memory is all
zero (R44). -/
def State.resetWith (mainMemory : Memory) (initialPc : Word) (stackLen : Nat) : State where
  regs := (Vector.replicate 16 0).set 14 initialPc
  main := mainMemory
  stack := ⟨stackLen, []⟩
  result := .ok

/-- The state with the word `w` in the cell of main memory that the next step fetches; main memory is
lengthened if that cell does not exist (log 4). -/
def State.placeWord (s : State) (w : Word) : State :=
  s.setMain ⟨max s.main.length (s.pc.toNat + 1), insertCell s.main.cells s.pc.toNat w⟩

end Sys2Proof.Machine
end

