-- ==== Sys2Proof/Machine/Flags.lean ====
section
/-! DEFINITION. The two flags, and every result and flag computation of the ALU. Operands are unsigned; each
computation is exact over the integers and narrowed at its end (41_arithmetic.md R134; 00_scope.md R12, R13). -/

namespace Sys2Proof.Machine

/-- `OVF`, bit 0 of FLAGS (10_state.md R23). -/
def State.ovf (s : State) : Bool := s.flags.getLsbD 0

/-- `CMP`, bit 1 of FLAGS (10_state.md R23). -/
def State.cmp (s : State) : Bool := s.flags.getLsbD 1

/-- One flag bit as a word. -/
def boolWord (b : Bool) : Word := if b then 1 else 0

/-- `OVF <- b`: only bit 0 of FLAGS changes (00_scope.md R12; 10_state.md R24). -/
def State.setOvf (s : State) (b : Bool) : State :=
  s.setFlags ((s.flags &&& 0xFFFE) ||| boolWord b)

/-- `CMP <- b`: only bit 1 of FLAGS changes (00_scope.md R12; 10_state.md R24). -/
def State.setCmp (s : State) (b : Bool) : State :=
  s.setFlags ((s.flags &&& 0xFFFD) ||| (boolWord b <<< 1))

/-- ADD's word: the exact sum reduced modulo 65536 (41_arithmetic.md R130). -/
def addWord (a b : Word) : Word := BitVec.ofNat 16 (a.toNat + b.toNat)

/-- ADD's OVF: the exact sum is 65536 or more (41_arithmetic.md R130). -/
def addOvf (a b : Word) : Bool := decide (65536 ≤ a.toNat + b.toNat)

/-- SUB's word: the exact difference reduced modulo 65536 (41_arithmetic.md R131). -/
def subWord (a b : Word) : Word := BitVec.ofInt 16 ((a.toNat : Int) - b.toNat)

/-- SUB's OVF: the exact difference is negative, a borrow (41_arithmetic.md R131; decision D5, log 11). -/
def subOvf (a b : Word) : Bool := decide ((a.toNat : Int) - b.toNat < 0)

/-- MUL's word: the low 16 bits of the exact product (41_arithmetic.md R132). -/
def mulWord (a b : Word) : Word := BitVec.ofNat 16 (a.toNat * b.toNat)

/-- MUL's OVF: the exact product is 65536 or more (41_arithmetic.md R132; decision D5, log 11). -/
def mulOvf (a b : Word) : Bool := decide (65536 ≤ a.toNat * b.toNat)

/-- DIV's quotient, unsigned floor, for a divisor that is not 0 (41_arithmetic.md R133; decision D5, log 11). -/
def divWord (a b : Word) : Word := BitVec.ofNat 16 (a.toNat / b.toNat)

/-- The distance shifted: the amount modulo 16 (42_shifts.md R142; decision D6, log 12). -/
def shiftDistance (n : Word) : Nat := (n &&& 0x000F).toNat

/-- SHL's word, zeros filled from bit 0 upward (42_shifts.md R140, R144). -/
def shlWord (a n : Word) : Word := BitVec.ofNat 16 (a.toNat * 2 ^ shiftDistance n)

/-- SHR's word, zeros filled from bit 15 downward (42_shifts.md R141, R144; decision D5, log 11). -/
def shrWord (a n : Word) : Word := BitVec.ofNat 16 (a.toNat / 2 ^ shiftDistance n)

/-- The OVF of both shifts: the whole amount is 16 or more (42_shifts.md R143). -/
def shiftOvf (n : Word) : Bool := decide (16 ≤ n.toNat)

/-- The complement of a word, `NOT_16` (00_scope.md R12). -/
def notWord (a : Word) : Word := ~~~a

/-- CMPGT's predicate, unsigned (44_compare.md R162, R167; decisions D4, D5, logs 10, 11). -/
def gtHolds (a b : Word) : Bool := decide (a.toNat > b.toNat)

/-- CMPLT's predicate, unsigned (44_compare.md R163, R167; decisions D4, D5, logs 10, 11). -/
def ltHolds (a b : Word) : Bool := decide (a.toNat < b.toNat)

/-- The truth value of a word: it is not 0 (44_compare.md R164; decision D7, log 13). -/
def truthy (a : Word) : Bool := decide (a ≠ 0)

/-- LXOR's predicate: exactly one operand is non-zero (44_compare.md R164; decision D7, log 13). -/
def lxorHolds (a b : Word) : Bool := truthy a != truthy b

/-- LNOT's predicate: the operand is 0 (44_compare.md R165; decision D7, log 13). -/
def lnotHolds (a : Word) : Bool := !truthy a

end Sys2Proof.Machine
end

