-- ==== Sys2Proof/Machine/Operands.lean ====
section
/-! DEFINITION. The operand forms, and the shapes the instructions share: a result to a register, a result
with OVF, a predicate to CMP, a load, a store, a conditional jump. Every operand is read before anything is
written (40_step_cycle.md R117). -/

namespace Sys2Proof.Machine

/-- The signed offset of a relative form as a 16-bit word, two's complement (30_encoding.md R84, `sext_16` of
00_scope.md R12; item G1, log 14). -/
def offsetWord (off8 : BitVec 8) : Word := off8.signExtend 16

/-- `trunc_16(x[14] + off)`, where `x[14]` is the address of the instruction itself (46_relative_data_movement.md
R182; decision D8, log 14). -/
def State.relAddr (s : State) (off8 : BitVec 8) : Word := s.pc + offsetWord off8

/-- Whether a jump with condition code `c` is taken; a code above 3 names no condition (48_jumps.md R202). -/
def State.condHolds (s : State) (c : Nat) : Option Bool :=
  match c with
  | 0 => some true
  | 1 => some s.cmp
  | 2 => some !s.cmp
  | 3 => some s.ovf
  | _ => none

/-- A result written to the first register, no flag (43_bitwise.md R155; 45_data_movement.md R170). -/
def writeResult (rd : Reg) (v : Word) (s : State) : Result := complete (s.setReg rd v)

/-- A result written to the first register, then OVF, in that order (40_step_cycle.md R118; decision D11,
log 17). -/
def writeResultOvf (rd : Reg) (v : Word) (b : Bool) (s : State) : Result :=
  complete ((s.setReg rd v).setOvf b)

/-- A predicate written to CMP, and nothing else (44_compare.md R166). -/
def writeCmp (b : Bool) (s : State) : Result := complete (s.setCmp b)

/-- A word of main memory loaded into a register, the memory's error propagated verbatim (45_data_movement.md
R171, R175; 46_relative_data_movement.md R180). -/
def loadInto (rd : Reg) (address : Word) (s : State) : Result :=
  match s.main.get address.toNat with
  | .ok v => complete (s.setReg rd v)
  | .error f => raise f s

/-- A word stored to main memory, the memory's error propagated verbatim (45_data_movement.md R172, R175;
46_relative_data_movement.md R181). -/
def storeAt (address v : Word) (s : State) : Result :=
  match s.main.set address.toNat v with
  | .ok m => complete (s.setMain m)
  | .error f => raise f s

/-- A jump with condition code `c` that writes `target` to PC when taken; the step's increment follows
(48_jumps.md R202, R203). -/
def jumpTo (c : Nat) (target : Word) (s : State) : Result :=
  match s.condHolds c with
  | some true => complete (s.setPc target)
  | some false => complete s
  | none => raise (.invalidJumpCondition c) s

/-- The words `x[0]` to `x[12]` in index order (47_stack.md R198; decision D14, log 20). -/
def State.block (s : State) : List Word := s.regsFrom 0 Config.blockSize

/-- `x[0]` to `x[12]` written in index order (47_stack.md R198; decision D14, log 20). -/
def State.setBlock (s : State) (vs : List Word) : State := s.setRegsFrom 0 vs

end Sys2Proof.Machine
end

