-- ==== Sys2Proof/Machine/Arithmetic.lean ====
section
/-! DEFINITION. ADD, SUB, MUL, DIV (41_arithmetic.md): `rd <- rd op rs` (R135; decision D4, log 10). -/

namespace Sys2Proof.Machine

/-- ADD rd, rs (41_arithmetic.md R130). -/
def execAdd (rd rs : Reg) (s : State) : Result :=
  writeResultOvf rd (addWord (s.reg rd) (s.reg rs)) (addOvf (s.reg rd) (s.reg rs)) s

/-- SUB rd, rs (41_arithmetic.md R131). -/
def execSub (rd rs : Reg) (s : State) : Result :=
  writeResultOvf rd (subWord (s.reg rd) (s.reg rs)) (subOvf (s.reg rd) (s.reg rs)) s

/-- MUL rd, rs (41_arithmetic.md R132). -/
def execMul (rd rs : Reg) (s : State) : Result :=
  writeResultOvf rd (mulWord (s.reg rd) (s.reg rs)) (mulOvf (s.reg rd) (s.reg rs)) s

/-- DIV rd, rs: a zero divisor raises DivisionByZero before any write; otherwise OVF is cleared
(41_arithmetic.md R133; decision D12, log 18). -/
def execDiv (rd rs : Reg) (s : State) : Result :=
  if s.reg rs = 0 then raise .divisionByZero s
  else writeResultOvf rd (divWord (s.reg rd) (s.reg rs)) false s

end Sys2Proof.Machine
end

