-- ==== Sys2Proof/Machine/Bitwise.lean ====
section
/-! DEFINITION. NOT, XOR, AND, OR, NOR (43_bitwise.md): no flag is written (R155). -/

namespace Sys2Proof.Machine

/-- NOT rd (43_bitwise.md R150). -/
def execNot (rd : Reg) (s : State) : Result := writeResult rd (notWord (s.reg rd)) s

/-- XOR rd, rs (43_bitwise.md R151). -/
def execXor (rd rs : Reg) (s : State) : Result := writeResult rd (s.reg rd ^^^ s.reg rs) s

/-- AND rd, rs (43_bitwise.md R152). -/
def execAnd (rd rs : Reg) (s : State) : Result := writeResult rd (s.reg rd &&& s.reg rs) s

/-- OR rd, rs (43_bitwise.md R153). -/
def execOr (rd rs : Reg) (s : State) : Result := writeResult rd (s.reg rd ||| s.reg rs) s

/-- NOR rd, rs (43_bitwise.md R154). -/
def execNor (rd rs : Reg) (s : State) : Result := writeResult rd (notWord (s.reg rd ||| s.reg rs)) s

end Sys2Proof.Machine
end

