-- ==== Sys2Proof/Machine/Compare.lean ====
section
/-! DEFINITION. CMPEQ, CMPNE, CMPGT, CMPLT, LXOR, LNOT (44_compare.md): only CMP is written (R166). -/

namespace Sys2Proof.Machine

/-- CMPEQ rd, rs (44_compare.md R160). -/
def execCmpeq (rd rs : Reg) (s : State) : Result := writeCmp (decide (s.reg rd = s.reg rs)) s

/-- CMPNE rd, rs (44_compare.md R161). -/
def execCmpne (rd rs : Reg) (s : State) : Result := writeCmp (decide (s.reg rd ≠ s.reg rs)) s

/-- CMPGT rd, rs (44_compare.md R162). -/
def execCmpgt (rd rs : Reg) (s : State) : Result := writeCmp (gtHolds (s.reg rd) (s.reg rs)) s

/-- CMPLT rd, rs (44_compare.md R163). -/
def execCmplt (rd rs : Reg) (s : State) : Result := writeCmp (ltHolds (s.reg rd) (s.reg rs)) s

/-- LXOR rd, rs (44_compare.md R164). -/
def execLxor (rd rs : Reg) (s : State) : Result := writeCmp (lxorHolds (s.reg rd) (s.reg rs)) s

/-- LNOT rd: the register is tested, not changed (44_compare.md R165). -/
def execLnot (rd : Reg) (s : State) : Result := writeCmp (lnotHolds (s.reg rd)) s

end Sys2Proof.Machine
end

