-- ==== Sys2Proof/Machine/DataMovement.lean ====
section
/-! DEFINITION. MOVE, LOAD, SAVE (45_data_movement.md): `rd` is the destination, `rs` the source (R173;
decision D3, log 9). -/

namespace Sys2Proof.Machine

/-- MOVE rd, rs (45_data_movement.md R170). -/
def execMove (rd rs : Reg) (s : State) : Result := writeResult rd (s.reg rs) s

/-- LOAD rd, rs: the address is in `rs` (45_data_movement.md R171). -/
def execLoad (rd rs : Reg) (s : State) : Result := loadInto rd (s.reg rs) s

/-- SAVE rd, rs: the address is in `rd`, the data in `rs` (45_data_movement.md R172). -/
def execSave (rd rs : Reg) (s : State) : Result := storeAt (s.reg rd) (s.reg rs) s

end Sys2Proof.Machine
end

