-- ==== Sys2Proof/Machine/Jumps.lean ====
section
/-! DEFINITION. JUMP, JUMPR (48_jumps.md). The two landing addresses are built differently (R203): JUMP
subtracts 1 so that the step's increment lands on the register's value, JUMPR does not. -/

namespace Sys2Proof.Machine

/-- JUMP rd, c (48_jumps.md R200). -/
def execJump (rd : Reg) (cond4 : BitVec 4) (s : State) : Result :=
  jumpTo cond4.toNat (s.reg rd - 1) s

/-- JUMPR off, c (48_jumps.md R201). -/
def execJumpr (off8 : BitVec 8) (cond3 : BitVec 3) (s : State) : Result :=
  jumpTo cond3.toNat (s.relAddr off8) s

end Sys2Proof.Machine
end

