-- ==== Sys2Proof/Machine/RelativeDataMovement.lean ====
section
/-! DEFINITION. LOADR, SAVER (46_relative_data_movement.md): the data register is always `r0` (R183). -/

namespace Sys2Proof.Machine

/-- LOADR off (46_relative_data_movement.md R180). -/
def execLoadr (off8 : BitVec 8) (s : State) : Result := loadInto 0 (s.relAddr off8) s

/-- SAVER off (46_relative_data_movement.md R181). -/
def execSaver (off8 : BitVec 8) (s : State) : Result := storeAt (s.relAddr off8) (s.reg 0) s

end Sys2Proof.Machine
end

