-- ==== Sys2Proof/Machine/Shifts.lean ====
section
/-! DEFINITION. SHL, SHR (42_shifts.md). -/

namespace Sys2Proof.Machine

/-- SHL rd, rs (42_shifts.md R140). -/
def execShl (rd rs : Reg) (s : State) : Result :=
  writeResultOvf rd (shlWord (s.reg rd) (s.reg rs)) (shiftOvf (s.reg rs)) s

/-- SHR rd, rs (42_shifts.md R141). -/
def execShr (rd rs : Reg) (s : State) : Result :=
  writeResultOvf rd (shrWord (s.reg rd) (s.reg rs)) (shiftOvf (s.reg rs)) s

end Sys2Proof.Machine
end

