-- ==== Sys2Proof/Machine/Stack.lean ====
section
/-! DEFINITION. PUSH, POP, PUSHA, POPA (47_stack.md), on the private stack memory; it grows upward and SP is
the next free slot (R194). The block's own error is replaced by the stack fault (R195; 20_memory.md R57). -/

namespace Sys2Proof.Machine

/-- PUSH rd: the slot gets the value `rd` had before SP rises (47_stack.md R190, R197). -/
def execPush (rd : Reg) (s : State) : Result :=
  match s.stack.set s.sp.toNat (s.reg rd) with
  | .ok m => complete ((s.setStack m).setSp (s.sp + 1))
  | .error _ => raise .stackOverflow s

/-- POP rd: SP is lowered, then `rd` gets the popped word, so `POP r15` ends with that word in SP
(47_stack.md R191, R197; decisions D12, D23, logs 18, 27). -/
def execPop (rd : Reg) (s : State) : Result :=
  if s.sp = 0 then raise .stackUnderflow s
  else match s.stack.get (s.sp.toNat - 1) with
    | .ok v => complete ((s.setSp (s.sp - 1)).setReg rd v)
    | .error _ => raise .unreachable s

/-- PUSHA: `x[0]` to `x[12]` in one range write (47_stack.md R192; decisions D13, D14, logs 19, 20). -/
def execPusha (s : State) : Result :=
  match s.stack.setRange s.sp.toNat s.block with
  | .ok m => complete ((s.setStack m).setSp (s.sp + 13))
  | .error _ => raise .stackOverflow s

/-- POPA: fewer than 13 words on the stack is StackUnderflow, a window outside the stack memory is Unreachable
(47_stack.md R193; decisions D13, D14, logs 19, 20). -/
def execPopa (s : State) : Result :=
  if s.sp.toNat < Config.blockSize then raise .stackUnderflow s
  else match s.stack.getRange (s.sp.toNat - Config.blockSize) Config.blockSize with
    | .ok vs => complete ((s.setSp (s.sp - 13)).setBlock vs)
    | .error _ => raise .unreachable s

end Sys2Proof.Machine
end

