-- ==== Sys2Proof/Machine/System.lean ====
section
/-! DEFINITION. NOP, INT and INVALID (49_nop_interrupt_invalid.md): each changes nothing and returns Ok. -/

namespace Sys2Proof.Machine

/-- NOP (49_nop_interrupt_invalid.md R210). -/
def execNop (s : State) : Result := complete s

/-- INT imm: a no-op whatever the immediate (49_nop_interrupt_invalid.md R211). -/
def execInt (_imm8 : BitVec 8) (s : State) : Result := complete s

/-- INVALID(w): a no-op (49_nop_interrupt_invalid.md R212; decision D10, log 16). -/
def execInvalid (_word : Word) (s : State) : Result := complete s

end Sys2Proof.Machine
end

