-- ==== Sys2Proof/Machine/Dispatch.lean ====
section
/-! DEFINITION. `Execute(i)`: one arm per constructor, each a direct call of its meaning (40_step_cycle.md R116). -/

namespace Sys2Proof.Machine

def exec (i : Instr) (s : State) : Host.Outcome State Fault Refusal :=
  match i with
  | .nop => Sys2Proof.Machine.execNop s
  | .push rd => Sys2Proof.Machine.execPush rd s
  | .pop rd => Sys2Proof.Machine.execPop rd s
  | .pusha => Sys2Proof.Machine.execPusha s
  | .popa => Sys2Proof.Machine.execPopa s
  | .move rd rs => Sys2Proof.Machine.execMove rd rs s
  | .load rd rs => Sys2Proof.Machine.execLoad rd rs s
  | .save rd rs => Sys2Proof.Machine.execSave rd rs s
  | .add rd rs => Sys2Proof.Machine.execAdd rd rs s
  | .sub rd rs => Sys2Proof.Machine.execSub rd rs s
  | .mul rd rs => Sys2Proof.Machine.execMul rd rs s
  | .div rd rs => Sys2Proof.Machine.execDiv rd rs s
  | .cmpeq rd rs => Sys2Proof.Machine.execCmpeq rd rs s
  | .cmpne rd rs => Sys2Proof.Machine.execCmpne rd rs s
  | .cmpgt rd rs => Sys2Proof.Machine.execCmpgt rd rs s
  | .cmplt rd rs => Sys2Proof.Machine.execCmplt rd rs s
  | .lxor rd rs => Sys2Proof.Machine.execLxor rd rs s
  | .lnot rd => Sys2Proof.Machine.execLnot rd s
  | .jump rd cond4 => Sys2Proof.Machine.execJump rd cond4 s
  | .int imm8 => Sys2Proof.Machine.execInt imm8 s
  | .invalid word => Sys2Proof.Machine.execInvalid word s
  | .shl rd rs => Sys2Proof.Machine.execShl rd rs s
  | .shr rd rs => Sys2Proof.Machine.execShr rd rs s
  | .not rd => Sys2Proof.Machine.execNot rd s
  | .xor rd rs => Sys2Proof.Machine.execXor rd rs s
  | .and rd rs => Sys2Proof.Machine.execAnd rd rs s
  | .or rd rs => Sys2Proof.Machine.execOr rd rs s
  | .nor rd rs => Sys2Proof.Machine.execNor rd rs s
  | .loadr off8 => Sys2Proof.Machine.execLoadr off8 s
  | .jumpr off8 cond3 => Sys2Proof.Machine.execJumpr off8 cond3 s
  | .saver off8 => Sys2Proof.Machine.execSaver off8 s

end Sys2Proof.Machine
end

