-- ==== Sys2Proof/Machine/Step.lean ====
section
/-! DEFINITION. STEP, the only transition of the core (40_step_cycle.md R110), and the placing of an
instruction where the next step fetches it. -/

namespace Sys2Proof.Machine

/-- One STEP: fetch, decode, execute, and the unconditional increment of PC (40_step_cycle.md R110). What it
returns to the host is the `result` of the next state. -/
def step (s : State) : Host.Outcome State Fault Refusal :=
  match fetch s with
  | .ok w => finish (exec (decode w) s)
  | .error f => finish (failFetch f s)

/-- The state with the table's instruction in the cell of main memory that PC addresses (log 4). -/
def State.withFetchWord (s : State) (nbits w : Nat) : State := s.placeWord (tableWord nbits w)

end Sys2Proof.Machine
end

