-- ==== Sys2Proof/Machine/Transactions.lean ====
section
/-! DEFINITION. What the outside can do to the core: RESET, STEP and host access to main memory, one at a time
(00_scope.md R7, R8; 20_memory.md R66; decisions D18, D24, log 24). -/

namespace Sys2Proof.Machine

/-- The transactions between the host and the core (00_scope.md R7). A host position is a natural number, not
a word (decision D16, log 22). -/
inductive Transaction where
  | reset (mainMemory : Memory) (initialPc : Word) (stackLen : Nat)
  | step
  | read (pos : Nat)
  | write (pos : Nat) (v : Word)
  | readRange (pos count : Nat)
  | writeRange (pos : Nat) (vs : List Word)
  deriving DecidableEq, Repr

/-- What a transaction returns to the host. -/
inductive Answer where
  | ok
  | word (w : Word)
  | words (ws : List Word)
  | fault (f : Fault)
  deriving DecidableEq, Repr

/-- The answer of a STEP. -/
def stepAnswer : StepResult → Answer
  | .ok => .ok
  | .fault f => .fault f

/-- The state after a transaction and what the host gets, or `none` if STEP gave no next state. A host access
that fails changes nothing (20_memory.md R51 to R54), and no host access changes a register, the stack memory
or the value the last STEP returned (00_scope.md R7, R8). -/
def perform (t : Transaction) (s : State) : Option (State × Answer) :=
  match t with
  | .reset mainMemory initialPc stackLen => some (State.resetWith mainMemory initialPc stackLen, .ok)
  | .step =>
    match step s with
    | .next s' => some (s', stepAnswer s'.result)
    | .fault _ => none
    | .refused _ => none
  | .read pos =>
    match s.main.get pos with
    | .ok w => some (s, .word w)
    | .error f => some (s, .fault f)
  | .write pos v =>
    match s.main.set pos v with
    | .ok m => some (s.setMain m, .ok)
    | .error f => some (s, .fault f)
  | .readRange pos count =>
    match s.main.getRange pos count with
    | .ok ws => some (s, .words ws)
    | .error f => some (s, .fault f)
  | .writeRange pos vs =>
    match s.main.setRange pos vs with
    | .ok m => some (s.setMain m, .ok)
    | .error f => some (s, .fault f)

/-- Transactions one after another, in the order the host asks for them (20_memory.md R64, R66): the state after the
last one, and what each returned, in that order. -/
def performAll : List Transaction → State → Option (State × List Answer)
  | [], s => some (s, [])
  | x :: xs, s =>
    match perform x s with
    | some (t, a) => (performAll xs t).map fun r => (r.1, a :: r.2)
    | none => none

end Sys2Proof.Machine
end

