-- ==== Sys2Proof/Machine/Runs.lean ====
section
/-! DEFINITION. A run: the STEPs the host chooses to issue, with the end-of-run condition as an argument
(70_reset_and_hazards.md R266; decision D20, log 25). -/

namespace Sys2Proof.Machine

/-- An end-of-run condition: whether the host, having got these answers from its STEPs (oldest first) and seeing
this main memory, issues no further STEP. The registers and the stack memory are no part of it, because the host
has no access to them (00_scope.md R7; log 33). -/
abbrev EndOfRun := List Answer → Memory → Bool

/-- Condition (a) of 70_reset_and_hazards.md R266: "a fixed number of steps". -/
def endAfter (count : Nat) : EndOfRun := fun answers _ => decide (count ≤ answers.length)

/-- The answer is a fault (60_exceptions.md R220). -/
def isFault : Answer → Bool
  | .fault _ => true
  | .ok | .word _ | .words _ => false

/-- Condition (b) of 70_reset_and_hazards.md R266: "the first step whose result is a fault". -/
def endAtFirstFault : EndOfRun := fun answers _ => answers.any isFault

/-- Whichever of two conditions holds first: "for a bounded count or until a fault"
(70_reset_and_hazards.md R266). -/
def endAtEither (p q : EndOfRun) : EndOfRun := fun answers main => p answers main || q answers main

/-- What a run leaves: the state after its last STEP, which is an ordinary state, what each STEP returned (oldest
first), and whether the end-of-run condition holds there. -/
structure Run where
  state : State
  answers : List Answer
  ended : Bool
  deriving DecidableEq, Repr

/-- A run continued after the STEPs that gave `answers`, for at most `limit` further STEPs: the condition is asked
before each STEP, and where it holds no STEP is issued. -/
def runFrom (ends : EndOfRun) : Nat → List Answer → State → Option Run
  | 0, answers, s => some ⟨s, answers, ends answers s.main⟩
  | limit + 1, answers, s =>
    if ends answers s.main then some ⟨s, answers, true⟩
    else match perform .step s with
      | some (t, a) => runFrom ends limit (answers ++ [a]) t
      | none => none

/-- A run from a state with an end-of-run condition (70_reset_and_hazards.md R266). A condition may never hold ("runs
forever"), so the run is followed for at most `limit` STEPs, and `ended` tells the two cases apart (log 33). -/
def run (ends : EndOfRun) (limit : Nat) (s : State) : Option Run := runFrom ends limit [] s

end Sys2Proof.Machine
end

