-- ==== Sys2Proof/Safety.lean ====
section
/-! DEFINITION. What a legal state is, and the words the statements use for what an instruction leaves
unchanged. -/

namespace Sys2Proof.Machine

/-- What every state that RESET and the transactions lead to keeps: both memories in canonical form, both
lengths in the ranges of the parameters (00_scope.md R5; 70_reset_and_hazards.md R262). -/
abbrev State.Inv (s : State) : Prop :=
  s.main.wf = true ∧ s.stack.wf = true ∧
    s.main.length ≤ Config.maxMemLen ∧ s.stack.length ≤ Config.maxStackLen

/-- The arguments of a RESET are legal (00_scope.md R5); every other transaction is legal as it stands. -/
def Transaction.legal : Transaction → Bool
  | .reset mainMemory _ stackLen =>
    mainMemory.wf && decide (mainMemory.length ≤ Config.maxMemLen) && decide (stackLen ≤ Config.maxStackLen)
  | .step | .read _ | .write _ _ | .readRange _ _ | .writeRange _ _ => true

/-- A transaction that is not a RESET. -/
def Transaction.keepsCore : Transaction → Bool
  | .reset _ _ _ => false
  | .step | .read _ | .write _ _ | .readRange _ _ | .writeRange _ _ => true

/-- A host memory access (00_scope.md R7 (3)). -/
def Transaction.isHostAccess : Transaction → Bool
  | .reset _ _ _ | .step => false
  | .read _ | .write _ _ | .readRange _ _ | .writeRange _ _ => true

/-- Every cell of main memory reads as before, in range and out of range. -/
def MainKept (s t : State) : Prop := ∀ a : Nat, t.main.get a = s.main.get a

/-- Every cell of the stack memory reads as before, in range and out of range. -/
def StackKept (s t : State) : Prop := ∀ a : Nat, t.stack.get a = s.stack.get a

/-- Every register outside the list holds what it held. -/
def RegsKeptBut (changed : List Reg) (s t : State) : Prop := ∀ r : Reg, r ∉ changed → t.reg r = s.reg r

/-- `after` is `before` with bit `i` replaced by `b`. -/
def OnlyBit (i : Nat) (b : Bool) (before after : Word) : Prop :=
  after.getLsbD i = b ∧ ∀ j, j ≠ i → after.getLsbD j = before.getLsbD j

/-- Every register and every cell of both memories is as it was. -/
def NothingChanged (s t : State) : Prop := RegsKeptBut [] s t ∧ MainKept s t ∧ StackKept s t

/-- A jump with condition code `c` (0 to 3) is taken in `s` (48_jumps.md R202). -/
abbrev Taken (s : State) (c : Nat) : Prop :=
  c = 0 ∨ (c = 1 ∧ (s.reg flagsReg).getLsbD 1 = true) ∨ (c = 2 ∧ (s.reg flagsReg).getLsbD 1 = false) ∨
    (c = 3 ∧ (s.reg flagsReg).getLsbD 0 = true)

/-- The effective address of a relative form, `trunc_16(x[14] + signed_8(arg))`, over the integers
(46_relative_data_movement.md R182; decision D8, log 14). -/
def effectiveAddress (s : State) (off8 : BitVec 8) : Nat :=
  ((((s.reg pcReg).toNat : Int) + off8.toInt) % 65536).toNat

/-- The fault of an access to word `a` of main memory, if it is out of range (60_exceptions.md R221). -/
def rangeResult (s : State) (a : Nat) : StepResult :=
  if s.main.length ≤ a then .fault (.pointerOutOfRange s.main.length a) else .ok

/-- The fault of a jump's condition code, if it names no condition (60_exceptions.md R225). -/
def conditionResult (c : Nat) : StepResult := if 4 ≤ c then .fault (.invalidJumpCondition c) else .ok

/-- The table of 60_exceptions.md R230: which fault an instruction raises, by its exact condition. -/
def faultTable (s : State) : Instr → StepResult
  | .div _ rs => if (s.reg rs).toNat = 0 then .fault .divisionByZero else .ok
  | .load _ rs => rangeResult s (s.reg rs).toNat
  | .save rd _ => rangeResult s (s.reg rd).toNat
  | .loadr off8 | .saver off8 => rangeResult s (effectiveAddress s off8)
  | .push _ => if s.stack.length ≤ (s.reg spReg).toNat then .fault .stackOverflow else .ok
  | .pusha => if s.stack.length < (s.reg spReg).toNat + 13 then .fault .stackOverflow else .ok
  | .pop _ =>
    if (s.reg spReg).toNat = 0 then .fault .stackUnderflow
    else if s.stack.length ≤ (s.reg spReg).toNat - 1 then .fault .unreachable else .ok
  | .popa =>
    if (s.reg spReg).toNat < 13 then .fault .stackUnderflow
    else if s.stack.length < (s.reg spReg).toNat then .fault .unreachable else .ok
  | .jump _ cond4 => conditionResult cond4.toNat
  | .jumpr _ cond3 => conditionResult cond3.toNat
  | .nop | .move _ _ | .add _ _ | .sub _ _ | .mul _ _ | .cmpeq _ _ | .cmpne _ _ | .cmpgt _ _ | .cmplt _ _
  | .lxor _ _ | .lnot _ | .int _ | .invalid _ | .shl _ _ | .shr _ _ | .not _ | .xor _ _ | .and _ _
  | .or _ _ | .nor _ _ => .ok

/-- The instruction does not complete: `exec` answers a next state that returns the fault and is otherwise
unchanged (40_step_cycle.md R113). -/
def Raises (i : Instr) (s : State) (f : Fault) : Prop :=
  ∃ t, exec i s = .next t ∧ t.result = .fault f ∧ NothingChanged s t

/-- The instruction completes with result Ok and changes no memory; it leaves in register `rd` the word whose
value is `v` and changes no other register, the flags among them unless `rd` is FLAGS. -/
def CompletesWithResult (i : Instr) (s : State) (rd : Reg) (v : Nat) : Prop :=
  ∃ t, exec i s = .next t ∧ t.result = .ok ∧ (t.reg rd).toNat = v ∧
    RegsKeptBut [rd] s t ∧ MainKept s t ∧ StackKept s t

/-- The instruction completes with result Ok and changes no memory; it leaves in register `rd` the word whose
value is `v`, writes `b` to OVF and no other bit of FLAGS, and changes no other register. -/
def CompletesWithResultAndOvf (i : Instr) (s : State) (rd : Reg) (v : Nat) (b : Bool) : Prop :=
  ∃ t, exec i s = .next t ∧ t.result = .ok ∧ (t.reg rd).toNat = v ∧
    OnlyBit 0 b (s.reg flagsReg) (t.reg flagsReg) ∧
    RegsKeptBut [rd, flagsReg] s t ∧ MainKept s t ∧ StackKept s t

/-- The instruction completes with result Ok, writes `b` to CMP and no other bit of FLAGS, and changes no other
register and no memory. -/
def CompletesWithCmp (i : Instr) (s : State) (b : Bool) : Prop :=
  ∃ t, exec i s = .next t ∧ t.result = .ok ∧ OnlyBit 1 b (s.reg flagsReg) (t.reg flagsReg) ∧
    RegsKeptBut [flagsReg] s t ∧ MainKept s t ∧ StackKept s t

end Sys2Proof.Machine

namespace Sys2Proof

/-- The register an instruction names as its destination, if it has one: the register it writes besides the
flag bit, SP as stack pointer, the 13-register block and a jump's PC (10_state.md R33). -/
def Instr.destination : Instr → Option Reg
  | .pop rd | .move rd _ | .load rd _ | .add rd _ | .sub rd _ | .mul rd _ | .div rd _ | .shl rd _
  | .shr rd _ | .not rd | .xor rd _ | .and rd _ | .or rd _ | .nor rd _ => some rd
  | .loadr _ => some 0
  | .nop | .push _ | .pusha | .popa | .save _ _ | .cmpeq _ _ | .cmpne _ _ | .cmpgt _ _ | .cmplt _ _
  | .lxor _ _ | .lnot _ | .jump _ _ | .int _ | .invalid _ | .jumpr _ _ | .saver _ => none

/-- The instructions that reach the stack memory (10_state.md R32). -/
def Instr.usesStack : Instr → Bool
  | .push _ | .pop _ | .pusha | .popa => true
  | .nop | .move _ _ | .load _ _ | .save _ _ | .add _ _ | .sub _ _ | .mul _ _ | .div _ _
  | .cmpeq _ _ | .cmpne _ _ | .cmpgt _ _ | .cmplt _ _ | .lxor _ _ | .lnot _
  | .jump _ _ | .int _ | .invalid _ | .shl _ _ | .shr _ _ | .not _ | .xor _ _ | .and _ _ | .or _ _
  | .nor _ _ | .loadr _ | .jumpr _ _ | .saver _ => false

/-- The registers an instruction may write, as tabled (10_state.md R33). -/
def Instr.writes : Instr → List Reg
  | .push _ | .pusha => [spReg]
  | .pop rd => [spReg, rd]
  | .popa => [spReg, 0, 1, 2, 3, 4, 5, 6, 7, 8, 9, 10, 11, 12]
  | .move rd _ | .load rd _ | .not rd | .xor rd _ | .and rd _ | .or rd _ | .nor rd _ => [rd]
  | .add rd _ | .sub rd _ | .mul rd _ | .div rd _ | .shl rd _ | .shr rd _ => [rd, flagsReg]
  | .cmpeq _ _ | .cmpne _ _ | .cmpgt _ _ | .cmplt _ _ | .lxor _ _ | .lnot _ => [flagsReg]
  | .jump _ _ | .jumpr _ _ => [pcReg]
  | .loadr _ => [0]
  | .nop | .int _ | .invalid _ | .save _ _ | .saver _ => []

/-- The instructions that write OVF (10_state.md R23). -/
def Instr.writesOvf : Instr → Bool
  | .add _ _ | .sub _ _ | .mul _ _ | .div _ _ | .shl _ _ | .shr _ _ => true
  | .nop | .push _ | .pop _ | .pusha | .popa | .move _ _ | .load _ _ | .save _ _
  | .cmpeq _ _ | .cmpne _ _ | .cmpgt _ _ | .cmplt _ _ | .lxor _ _ | .lnot _ | .jump _ _ | .int _
  | .invalid _ | .not _ | .xor _ _ | .and _ _ | .or _ _ | .nor _ _ | .loadr _ | .jumpr _ _
  | .saver _ => false

/-- The instructions that write CMP (10_state.md R23). -/
def Instr.writesCmp : Instr → Bool
  | .cmpeq _ _ | .cmpne _ _ | .cmpgt _ _ | .cmplt _ _ | .lxor _ _ | .lnot _ => true
  | .nop | .push _ | .pop _ | .pusha | .popa | .move _ _ | .load _ _ | .save _ _ | .add _ _ | .sub _ _
  | .mul _ _ | .div _ _ | .jump _ _ | .int _ | .invalid _ | .shl _ _ | .shr _ _ | .not _ | .xor _ _
  | .and _ _ | .or _ _ | .nor _ _ | .loadr _ | .jumpr _ _ | .saver _ => false

/-- The instructions that store to main memory (20_memory.md R57). -/
def Instr.storesToMain : Instr → Bool
  | .save _ _ | .saver _ => true
  | .nop | .push _ | .pop _ | .pusha | .popa | .move _ _ | .load _ _ | .add _ _ | .sub _ _
  | .mul _ _ | .div _ _ | .cmpeq _ _ | .cmpne _ _ | .cmpgt _ _ | .cmplt _ _ | .lxor _ _ | .lnot _
  | .jump _ _ | .int _ | .invalid _ | .shl _ _ | .shr _ _ | .not _ | .xor _ _ | .and _ _ | .or _ _
  | .nor _ _ | .loadr _ | .jumpr _ _ => false

/-- The bits of a word that some field of its opcode's format uses, from the seven patterns (30_encoding.md
R87); none for a reserved opcode, whose word encodes back to the zero word (R90). -/
def usedBits (w : Word) : Word :=
  match w.toNat % 32 with
  | 0 | 3 | 4 => 0x001F
  | 1 | 2 | 17 | 23 => 0x01FF
  | 19 | 28 | 30 => 0xFF1F
  | 29 => 0xFFFF
  | 20 | 31 => 0x0000
  | _ => 0x1FFF

end Sys2Proof
end

