-- ==== Sys2Proof/Certificates/Slice0/Obligations.lean ====
section
/-! DEFINITION. The statements for the provers. A clause that rests on a decision of the spec's own
(92_eei_decisions.md) or on a choice of the model names it with its log entry. -/

open Sys2Proof Sys2Proof.Machine

/-- Decode and encode agree on every instruction but INVALID. 30_encoding.md R91 (a). The opcode numbers and two
field places it runs through are the spec's own decisions D1, D2, D25 (logs 7, 8, 28). -/
def Obligations.DecodeOfEncodeGivesTheInstructionBack : Prop :=
  ∀ i : Instr, i.wellFormed = true → (∀ w, i ≠ .invalid w) → decode (encode i) = i

/-- Exactly the words with opcode 20 or 31 decode to INVALID, which carries the whole word. 30_encoding.md R92. -/
def Obligations.ReservedWordsAndNoOthersDecodeToInvalid : Prop :=
  (∀ w : Word, (w.toNat % 32 = 20 ∨ w.toNat % 32 = 31) → decode w = .invalid w) ∧
    (∀ w v : Word, decode w = .invalid v → w.toNat % 32 = 20 ∨ w.toNat % 32 = 31) ∧
    ∃ f : Bool × BitVec 11 → Word, Function.Injective f ∧
      ∀ w : Word, (∃ v, decode w = .invalid v) ↔ ∃ x, f x = w

/-- Encoding what a word decodes to gives that word with its ignored bits cleared. 30_encoding.md R87, R88, R90,
R91 (c). That stray bits are ignored is the spec's own decision D9 (log 15), and so are the opcode numbers and
two field places, D1, D2, D25 (logs 7, 8, 28). -/
def Obligations.EncodeOfDecodeKeepsExactlyTheUsedBits : Prop :=
  ∀ w : Word, encode (decode w) = w &&& usedBits w

/-- Two words that agree on the used bits decode to the same instruction. 30_encoding.md R88. The spec's own
decision D9 (log 15), and so are the opcode numbers and two field places, D1, D2, D25 (logs 7, 8, 28). -/
def Obligations.IgnoredBitsTakeNoPartInDecoding : Prop :=
  ∀ w v : Word, reservedWord w = false → v &&& usedBits w = w &&& usedBits w → decode v = decode w

/-- Decoding is total and every word decodes to a well-formed instruction. 30_encoding.md R89, R93. -/
def Obligations.EveryWordDecodesToAWellFormedInstruction : Prop :=
  ∀ w : Word, (decode w).wellFormed = true ∧ ∀ v, decode w = .invalid v → v = w

/-- Words written out from the encoding tables decode to their instructions. The words and their instructions are
those of 95_test_vectors.md section 2.1. They rest on the spec's own decisions: the opcode numbers D1 (log 7),
the place of the condition of JUMP D2 (log 8), the field of the one-register words D25 (log 28), the stray
bits of 0x0437 D9 (log 15). -/
def Obligations.WrittenOutWordsDecodeToTheirInstructions : Prop :=
  decode 0x0428 = .add 1 2 ∧ decode 0x0436 = .shr 1 2 ∧ decode 0x0437 = .not 1 ∧ decode 0x0031 = .lnot 1 ∧
    decode 0x1C26 = .load 1 14 ∧ decode 0xFE1C = .loadr 0xFE ∧ decode 0x01E2 = .pop 15 ∧
    decode 0x1E52 = .jump 2 15 ∧ decode 0xFC5D = .jumpr 0xFC 2 ∧ decode 0x2A13 = .int 42 ∧
    decode 0xABD4 = .invalid 0xABD4

/-- A step fetches the word at PC, runs what it decodes to, then adds 1 to PC. 40_step_cycle.md R111, with the
frame of R110 and R115. -/
def Obligations.StepRunsTheDecodedInstruction : Prop :=
  ∀ (s : State) (w : Word) (i : Instr), s.main.get (s.reg pcReg).toNat = .ok w → decode w = i →
    ∃ t u, exec i s = .next t ∧ step s = .next u ∧
      (u.reg pcReg).toNat = ((t.reg pcReg).toNat + 1) % 65536 ∧ RegsKeptBut [pcReg] t u ∧
      MainKept t u ∧ StackKept t u ∧ u.result = t.result

/-- A failed fetch returns PointerOutOfRange with the PC that was tried and leaves PC at 0. 40_step_cycle.md R112.
PC at 0x0000 is the spec's own decision D26 (log 29). -/
def Obligations.FailedFetchFaultsAndRestartsAtZero : Prop :=
  ∀ s : State, s.main.length ≤ (s.reg pcReg).toNat →
    ∃ t, step s = .next t ∧
      t.result = .fault (.pointerOutOfRange s.main.length (s.reg pcReg).toNat) ∧
      t.reg pcReg = 0 ∧ RegsKeptBut [pcReg] s t ∧ MainKept s t ∧ StackKept s t

/-- STEP is enabled in every state and every instruction answers a next state. 40_step_cycle.md R120;
60_exceptions.md R229. For INVALID it is decision D10 (log 16). -/
def Obligations.NoStateAndNoInstructionStopsTheCore : Prop :=
  (∀ s : State, ∃ t, step s = .next t) ∧ (∀ (i : Instr) (s : State), ∃ t, exec i s = .next t) ∧
    ∀ (x : Transaction) (s : State), ∃ t a, perform x s = some (t, a)

/-- Every step keeps both memories canonical and within the legal lengths. The invariant rules out states no run
reaches. The canonical form is the model's own (log 2), the ranges are the spec's decision D16 (log 22). -/
def Obligations.EveryStepKeepsTheInvariant : Prop :=
  ∀ s t : State, s.Inv → step s = .next t → t.Inv

/-- Every legal RESET, the model's State.reset among them, meets the invariant. The arguments of State.reset are
the model's choice (log 3); the ranges are decision D16 (log 22). -/
def Obligations.EveryResetMeetsTheInvariant : Prop :=
  (∀ (m : Memory) (pc : Word) (n : Nat), m.wf = true → m.length ≤ 65536 → n ≤ 65535 →
    (State.resetWith m pc n).Inv) ∧ State.reset.Inv

/-- RESET, STEP and host memory access all keep the invariant. The host interface of 00_scope.md R7 over the
invariant of EveryStepKeepsTheInvariant. Decisions D16, D18, D24 (logs 22, 24). -/
def Obligations.EveryTransactionKeepsTheInvariant : Prop :=
  (∀ (x : Transaction) (s t : State) (a : Answer), x.legal = true → s.Inv → perform x s = some (t, a) → t.Inv) ∧
    ∀ (xs : List Transaction) (s t : State) (as : List Answer), (∀ x ∈ xs, x.legal = true) → s.Inv →
      performAll xs s = some (t, as) → t.Inv

/-- No transaction but RESET changes the length of a memory. 00_scope.md R15; 20_memory.md R50. -/
def Obligations.MemoryLengthsAreFixedBetweenResets : Prop :=
  ∀ (x : Transaction) (s t : State) (a : Answer), x.keepsCore = true → perform x s = some (t, a) →
    t.main.length = s.main.length ∧ t.stack.length = s.stack.length

/-- A step that returns a fault has changed nothing but PC. 40_step_cycle.md R112, R113; 60_exceptions.md R229,
R231. Decisions D12 and D26 (logs 18, 29). -/
def Obligations.FaultingStepChangesNothingButPc : Prop :=
  ∀ (s t : State) (f : Fault), step s = .next t → t.result = .fault f →
    RegsKeptBut [pcReg] s t ∧ MainKept s t ∧ StackKept s t ∧
      t.reg pcReg = if (s.reg pcReg).toNat < s.main.length then s.reg pcReg + 1 else 0

/-- What a step returns is exactly what the fault table says. 60_exceptions.md R230 and R222; the spec marks the
table as derived from its instruction rules. Decisions D2, D3, D4, D8, D10, D13 (logs 8, 9, 10, 14, 16, 19). -/
def Obligations.StepResultFollowsTheFaultTable : Prop :=
  ∀ s t : State, step s = .next t →
    (s.main.length ≤ (s.reg pcReg).toNat →
      t.result = .fault (.pointerOutOfRange s.main.length (s.reg pcReg).toNat)) ∧
    (∀ w, s.main.get (s.reg pcReg).toNat = .ok w → t.result = faultTable s (decode w)) ∧
    ∀ l p e, t.result ≠ .fault (.pointerRangeOverflow l p e)

/-- Unless an instruction names r15 as destination, SP stays within the stack and Unreachable never occurs.
10_state.md R30 (derived by the spec) and the situation 93_implementation_defined.md U6 describes. Decisions
D3, D10, D12, D13, D16 (logs 9, 16, 18, 19, 22). -/
def Obligations.StackPointerStaysInTheStack : Prop :=
  ∀ s t : State, s.stack.length ≤ 65535 → (s.reg spReg).toNat ≤ s.stack.length →
    (∀ w, s.main.get (s.reg pcReg).toNat = .ok w → (decode w).destination ≠ some spReg) →
    step s = .next t → (t.reg spReg).toNat ≤ t.stack.length ∧ t.result ≠ .fault .unreachable

/-- The stack memory is invisible to every other instruction, and main memory to the stack instructions.
10_state.md R31, R32; 47_stack.md R194. For INVALID it is decision D10 (log 16). -/
def Obligations.OnlyStackInstructionsReachTheStackMemory : Prop :=
  ∀ (i : Instr) (s t : State) (m : Memory), exec i s = .next t →
    (i.usesStack = false → t.stack = s.stack ∧ exec i (s.setStack m) = .next (t.setStack m)) ∧
    (i.usesStack = true → t.main = s.main ∧ exec i (s.setMain m) = .next (t.setMain m))

/-- No instruction but SAVE and SAVER changes a cell of main memory. 20_memory.md R57. For INVALID it is decision
D10 (log 16). -/
def Obligations.OnlySaveAndSaverStoreToMainMemory : Prop :=
  ∀ (i : Instr) (s t : State), i.storesToMain = false → exec i s = .next t → MainKept s t

/-- Every instruction leaves every register outside its row of the access table unchanged. 10_state.md R33, which
the spec marks as derived from its instruction rules. Decisions D3, D10 (logs 9, 16). -/
def Obligations.InstructionsWriteOnlyTheTabledRegisters : Prop :=
  ∀ (i : Instr) (s t : State), exec i s = .next t → RegsKeptBut i.writes s t

/-- Only the flag-writing families change OVF and CMP, and no instruction changes FLAGS bits 15:2 as flags.
10_state.md R23, R24 (derived by the spec); 70_reset_and_hazards.md R271 W12. Decisions D3, D10 (logs 9, 16). -/
def Obligations.FlagsPersistAcrossOtherInstructions : Prop :=
  ∀ (i : Instr) (s t : State), exec i s = .next t → i.destination ≠ some flagsReg →
    (i.writesOvf = false → (t.reg flagsReg).getLsbD 0 = (s.reg flagsReg).getLsbD 0) ∧
    (i.writesCmp = false → (t.reg flagsReg).getLsbD 1 = (s.reg flagsReg).getLsbD 1) ∧
    ∀ j, 2 ≤ j → (t.reg flagsReg).getLsbD j = (s.reg flagsReg).getLsbD j

/-- What the last step returned has no effect on the next one. 60_exceptions.md R226. The field is the model's own
(log 1). -/
def Obligations.StepIgnoresTheReturnedValue : Prop :=
  ∀ (s : State) (x : StepResult), step (s.setResult x) = step s

/-- ADD writes the sum modulo 65536 and sets OVF exactly when it does not fit. 41_arithmetic.md R130. -/
def Obligations.AddWritesTheSumAndItsOverflow : Prop :=
  ∀ (rd rs : Reg) (s : State), rd ≠ flagsReg →
    CompletesWithResultAndOvf (.add rd rs) s rd
      (((s.reg rd).toNat + (s.reg rs).toNat) % 65536)
      (decide (65536 ≤ (s.reg rd).toNat + (s.reg rs).toNat))

/-- SUB writes rd - rs modulo 65536 and sets OVF exactly on a borrow. 41_arithmetic.md R131. Decisions D4, D5
(logs 10, 11). -/
def Obligations.SubWritesTheDifferenceAndItsBorrow : Prop :=
  ∀ (rd rs : Reg) (s : State), rd ≠ flagsReg →
    CompletesWithResultAndOvf (.sub rd rs) s rd
      ((((s.reg rd).toNat : Int) - (s.reg rs).toNat) % 65536).toNat
      (decide ((s.reg rd).toNat < (s.reg rs).toNat))

/-- MUL writes the low 16 bits of the product and sets OVF exactly when it does not fit. 41_arithmetic.md R132.
Decision D5 (log 11). -/
def Obligations.MulWritesTheLowProductAndItsOverflow : Prop :=
  ∀ (rd rs : Reg) (s : State), rd ≠ flagsReg →
    CompletesWithResultAndOvf (.mul rd rs) s rd
      (((s.reg rd).toNat * (s.reg rs).toNat) % 65536)
      (decide (65536 ≤ (s.reg rd).toNat * (s.reg rs).toNat))

/-- DIV by a non-zero divisor writes the quotient and clears OVF. 41_arithmetic.md R133. Decisions D4, D5 (logs
10, 11). -/
def Obligations.DivWritesTheQuotientAndClearsOverflow : Prop :=
  ∀ (rd rs : Reg) (s : State), rd ≠ flagsReg → s.reg rs ≠ 0 →
    CompletesWithResultAndOvf (.div rd rs) s rd ((s.reg rd).toNat / (s.reg rs).toNat) false

/-- DIV raises DivisionByZero when the divisor is 0, with nothing written. 60_exceptions.md R228, R231;
41_arithmetic.md R133. That x[rs] is the divisor is the spec's own decision D4 (log 10), that nothing is
written is D12 (log 18). -/
def Obligations.DivByZeroRaisesDivisionByZero : Prop :=
  ∀ (rd rs : Reg) (s : State),
    (s.reg rs = 0 → Raises (.div rd rs) s .divisionByZero) ∧
    (s.reg rs ≠ 0 → ∃ t, exec (.div rd rs) s = .next t ∧ t.result = .ok)

/-- With rd = FLAGS the result is written first and OVF then replaces its bit 0. 40_step_cycle.md R118;
41_arithmetic.md R136. The spec's own decision D11 (log 17), over D4, D5, D6 (logs 10, 11, 12). -/
def Obligations.ArithmeticIntoFlagsEndsWithTheOverflowBit : Prop :=
  ∀ (rs : Reg) (s : State),
    let a := (s.reg flagsReg).toNat
    let b := (s.reg rs).toNat
    let ends := fun (i : Instr) (v : Nat) (ovf : Bool) => ∃ t, exec i s = .next t ∧ t.result = .ok ∧
      OnlyBit 0 ovf (BitVec.ofNat 16 v) (t.reg flagsReg) ∧
      RegsKeptBut [flagsReg] s t ∧ MainKept s t ∧ StackKept s t
    ends (.add flagsReg rs) (a + b) (decide (65536 ≤ a + b)) ∧
    ends (.sub flagsReg rs) (((a : Int) - b) % 65536).toNat (decide (a < b)) ∧
    ends (.mul flagsReg rs) (a * b) (decide (65536 ≤ a * b)) ∧
    (s.reg rs ≠ 0 → ends (.div flagsReg rs) (a / b) false) ∧
    ends (.shl flagsReg rs) (a * 2 ^ (b % 16)) (decide (16 ≤ b)) ∧
    ends (.shr flagsReg rs) (a / 2 ^ (b % 16)) (decide (16 ≤ b))

/-- SHL and SHR shift by the amount modulo 16, fill with zeros, and set OVF exactly when the amount is 16 or more.
42_shifts.md R140 to R144. Decisions D5, D6 (logs 11, 12). -/
def Obligations.ShiftsMoveByTheAmountModulo16 : Prop :=
  ∀ (rd rs : Reg) (s : State), rd ≠ flagsReg →
    CompletesWithResultAndOvf (.shl rd rs) s rd
      (((s.reg rd).toNat * 2 ^ ((s.reg rs).toNat % 16)) % 65536) (decide (16 ≤ (s.reg rs).toNat)) ∧
    CompletesWithResultAndOvf (.shr rd rs) s rd
      ((s.reg rd).toNat / 2 ^ ((s.reg rs).toNat % 16)) (decide (16 ≤ (s.reg rs).toNat))

/-- NOT, XOR, AND, OR, NOR write the bitwise result to rd, whichever register it is, and nothing else.
43_bitwise.md R155, with the operations of R150 to R154. -/
def Obligations.BitwiseInstructionsWorkBitByBitAndWriteNoFlag : Prop :=
  ∀ (rd rs : Reg) (s : State),
    let writes := fun (i : Instr) (bit : Nat → Bool) => ∃ t, exec i s = .next t ∧ t.result = .ok ∧
      (∀ j, j < 16 → (t.reg rd).getLsbD j = bit j) ∧
      RegsKeptBut [rd] s t ∧ MainKept s t ∧ StackKept s t
    let x := fun j => (s.reg rd).getLsbD j
    let y := fun j => (s.reg rs).getLsbD j
    writes (.not rd) (fun j => !x j) ∧
    writes (.xor rd rs) (fun j => x j != y j) ∧
    writes (.and rd rs) (fun j => x j && y j) ∧
    writes (.or rd rs) (fun j => x j || y j) ∧
    writes (.nor rd rs) (fun j => !(x j || y j))

/-- CMPEQ and CMPNE write whether the operands are equal or differ to CMP, and nothing else. 44_compare.md R160,
R161, R166. -/
def Obligations.EqualityComparisonsWriteOnlyCmp : Prop :=
  ∀ (rd rs : Reg) (s : State),
    CompletesWithCmp (.cmpeq rd rs) s (decide ((s.reg rd).toNat = (s.reg rs).toNat)) ∧
    CompletesWithCmp (.cmpne rd rs) s (decide ((s.reg rd).toNat ≠ (s.reg rs).toNat))

/-- CMPGT and CMPLT compare rd with rs as unsigned numbers and write only CMP. 44_compare.md R162, R163, R167.
Decisions D4, D5 (logs 10, 11). -/
def Obligations.OrderComparisonsAreUnsigned : Prop :=
  ∀ (rd rs : Reg) (s : State),
    CompletesWithCmp (.cmpgt rd rs) s (decide ((s.reg rd).toNat > (s.reg rs).toNat)) ∧
    CompletesWithCmp (.cmplt rd rs) s (decide ((s.reg rd).toNat < (s.reg rs).toNat))

/-- LXOR holds when exactly one operand is non-zero, LNOT when its operand is 0; only CMP is written.
44_compare.md R164, R165. Decision D7 (log 13). -/
def Obligations.LogicalComparisonsTestForZero : Prop :=
  ∀ (rd rs : Reg) (s : State),
    CompletesWithCmp (.lxor rd rs) s
      (decide (((s.reg rd).toNat = 0 ∧ (s.reg rs).toNat ≠ 0) ∨ ((s.reg rd).toNat ≠ 0 ∧ (s.reg rs).toNat = 0))) ∧
    CompletesWithCmp (.lnot rd) s (decide ((s.reg rd).toNat = 0))

/-- MOVE copies rs to rd and changes nothing else. 45_data_movement.md R170. Decision D3 (log 9). -/
def Obligations.MoveCopiesTheSourceRegister : Prop :=
  ∀ (rd rs : Reg) (s : State), CompletesWithResult (.move rd rs) s rd (s.reg rs).toNat

/-- LOAD puts the word at the address in rs into rd, or returns PointerOutOfRange with nothing written.
45_data_movement.md R171, R175. Decisions D3, D12 (logs 9, 18). -/
def Obligations.LoadReadsMainMemoryOrFaults : Prop :=
  ∀ (rd rs : Reg) (s : State),
    (∀ v, s.main.get (s.reg rs).toNat = .ok v → CompletesWithResult (.load rd rs) s rd v.toNat) ∧
    ((s.reg rs).toNat < s.main.length → ∃ v, s.main.get (s.reg rs).toNat = .ok v) ∧
    (s.main.length ≤ (s.reg rs).toNat →
      Raises (.load rd rs) s (.pointerOutOfRange s.main.length (s.reg rs).toNat))

/-- SAVE stores rs at the address in rd and changes no other cell, or returns PointerOutOfRange.
45_data_movement.md R172, R175. The address stored to is x[rd]. Decisions D3, D12 (logs 9, 18). -/
def Obligations.SaveWritesOneWordOrFaults : Prop :=
  ∀ (rd rs : Reg) (s : State), s.main.wf = true →
    ((s.reg rd).toNat < s.main.length → ∃ t, exec (.save rd rs) s = .next t ∧ t.result = .ok ∧
      t.main.get (s.reg rd).toNat = .ok (s.reg rs) ∧
      (∀ a : Nat, a ≠ (s.reg rd).toNat → t.main.get a = s.main.get a) ∧
      RegsKeptBut [] s t ∧ StackKept s t) ∧
    (s.main.length ≤ (s.reg rd).toNat →
      Raises (.save rd rs) s (.pointerOutOfRange s.main.length (s.reg rd).toNat))

/-- LOADR puts the word at PC + offset into r0, or returns PointerOutOfRange with nothing written.
46_relative_data_movement.md R180, R182, R183. Decisions D8, D12 (logs 14, 18). -/
def Obligations.LoadrReadsAtPcPlusOffsetOrFaults : Prop :=
  ∀ (off : BitVec 8) (s : State),
    (∀ v, s.main.get (effectiveAddress s off) = .ok v → CompletesWithResult (.loadr off) s 0 v.toNat) ∧
    (effectiveAddress s off < s.main.length → ∃ v, s.main.get (effectiveAddress s off) = .ok v) ∧
    (s.main.length ≤ effectiveAddress s off →
      Raises (.loadr off) s (.pointerOutOfRange s.main.length (effectiveAddress s off)))

/-- SAVER stores r0 at PC + offset and changes no other cell, or returns PointerOutOfRange.
46_relative_data_movement.md R181 to R183. Decisions D8, D12 (logs 14, 18). -/
def Obligations.SaverWritesAtPcPlusOffsetOrFaults : Prop :=
  ∀ (off : BitVec 8) (s : State), s.main.wf = true →
    (s.relAddr off).toNat = effectiveAddress s off ∧
    ((s.relAddr off).toNat < s.main.length → ∃ t, exec (.saver off) s = .next t ∧ t.result = .ok ∧
      t.main.get (s.relAddr off).toNat = .ok (s.reg 0) ∧
      (∀ a : Nat, a ≠ (s.relAddr off).toNat → t.main.get a = s.main.get a) ∧
      RegsKeptBut [] s t ∧ StackKept s t) ∧
    (s.main.length ≤ (s.relAddr off).toNat →
      Raises (.saver off) s (.pointerOutOfRange s.main.length (s.relAddr off).toNat))

/-- A word that SAVER stores after itself is the word the next step fetches. 20_memory.md R68 (derived by the
spec); 46_relative_data_movement.md R181. The wrapping address is decision D8 (log 14). -/
def Obligations.StoredWordIsTheNextInstruction : Prop :=
  ∀ (s : State) (w : Word), s.Inv → s.main.get (s.reg pcReg).toNat = .ok w → decode w = .saver 1 →
    ((s.reg pcReg).toNat + 1) % 65536 < s.main.length →
    ∃ t, step s = .next t ∧ t.result = .ok ∧ t.main.get (t.reg pcReg).toNat = .ok (s.reg 0)

/-- A LOAD, SAVE, LOADR or SAVER out of range returns the memory's error and the step only advances PC.
45_data_movement.md R175; 46_relative_data_movement.md R183; 40_step_cycle.md R113. Decisions D3, D8, D12
(logs 9, 14, 18). -/
def Obligations.OutOfRangeAccessIsSkippedWithItsError : Prop :=
  ∀ (s : State) (w : Word) (a : Nat), s.main.get (s.reg pcReg).toNat = .ok w → s.main.length ≤ a →
    ((∃ rd rs, decode w = .load rd rs ∧ a = (s.reg rs).toNat) ∨
      (∃ rd rs, decode w = .save rd rs ∧ a = (s.reg rd).toNat) ∨
      (∃ off, (decode w = .loadr off ∨ decode w = .saver off) ∧ a = effectiveAddress s off)) →
    ∃ t, step s = .next t ∧ t.result = .fault (.pointerOutOfRange s.main.length a) ∧
      t.reg pcReg = s.reg pcReg + 1 ∧ RegsKeptBut [pcReg] s t ∧ MainKept s t ∧ StackKept s t

/-- PUSH writes rd to the slot at SP, adds 1 to SP, and changes no other cell or register. 47_stack.md R190, R197.
Decisions D16, D23 (logs 22, 27). -/
def Obligations.PushStoresAtSpAndRaisesSp : Prop :=
  ∀ (rd : Reg) (s : State), s.Inv → (s.reg spReg).toNat < s.stack.length →
    ∃ t, exec (.push rd) s = .next t ∧ t.result = .ok ∧
      (t.reg spReg).toNat = (s.reg spReg).toNat + 1 ∧
      t.stack.get (s.reg spReg).toNat = .ok (s.reg rd) ∧
      (∀ a : Nat, a ≠ (s.reg spReg).toNat → t.stack.get a = s.stack.get a) ∧
      RegsKeptBut [spReg] s t ∧ MainKept s t

/-- POP lowers SP by 1 and puts the word of that slot into rd, leaving the slot as it is. 47_stack.md R191, R194,
R197. Decision D23 (log 27). -/
def Obligations.PopLowersSpAndReadsTheSlot : Prop :=
  ∀ (rd : Reg) (s : State), 0 < (s.reg spReg).toNat → (s.reg spReg).toNat ≤ s.stack.length →
    ∃ v t, s.stack.get ((s.reg spReg).toNat - 1) = .ok v ∧ exec (.pop rd) s = .next t ∧ t.result = .ok ∧
      t.reg rd = v ∧ (rd ≠ spReg → (t.reg spReg).toNat = (s.reg spReg).toNat - 1) ∧
      RegsKeptBut [rd, spReg] s t ∧ MainKept s t ∧ StackKept s t

/-- PUSHA writes r0 to r12 to the 13 slots at SP in index order and adds 13 to SP. 47_stack.md R192, R198.
Decisions D13, D14, D16 (logs 19, 20, 22). -/
def Obligations.PushaStoresTheThirteenRegisters : Prop :=
  ∀ s : State, s.Inv → (s.reg spReg).toNat + 13 ≤ s.stack.length →
    ∃ t, exec .pusha s = .next t ∧ t.result = .ok ∧
      (t.reg spReg).toNat = (s.reg spReg).toNat + 13 ∧
      (∀ i : Nat, i < 13 → t.stack.get ((s.reg spReg).toNat + i) = .ok (s.reg (BitVec.ofNat 4 i))) ∧
      (∀ a : Nat, (a < (s.reg spReg).toNat ∨ (s.reg spReg).toNat + 13 ≤ a) → t.stack.get a = s.stack.get a) ∧
      RegsKeptBut [spReg] s t ∧ MainKept s t

/-- POPA lowers SP by 13 and loads r0 to r12 from the window in index order. 47_stack.md R193, R198. Decisions
D13, D14 (logs 19, 20). -/
def Obligations.PopaLoadsTheThirteenRegisters : Prop :=
  ∀ s : State, 13 ≤ (s.reg spReg).toNat → (s.reg spReg).toNat ≤ s.stack.length →
    ∃ t, exec .popa s = .next t ∧ t.result = .ok ∧
      (t.reg spReg).toNat = (s.reg spReg).toNat - 13 ∧
      (∀ i : Nat, i < 13 → s.stack.get ((s.reg spReg).toNat - 13 + i) = .ok (t.reg (BitVec.ofNat 4 i))) ∧
      t.reg flagsReg = s.reg flagsReg ∧ t.reg pcReg = s.reg pcReg ∧ MainKept s t ∧ StackKept s t

/-- When each stack instruction raises StackOverflow, StackUnderflow or Unreachable, with nothing written.
47_stack.md R190 to R193, R195, R196. Decisions D12, D13 (logs 18, 19). -/
def Obligations.StackFaultsByTheirExactConditions : Prop :=
  ∀ (rd : Reg) (s : State),
    let sp := (s.reg spReg).toNat
    (s.stack.length ≤ sp → Raises (.push rd) s .stackOverflow) ∧
    (s.stack.length < sp + 13 → Raises .pusha s .stackOverflow) ∧
    (sp = 0 → Raises (.pop rd) s .stackUnderflow) ∧
    (0 < sp → s.stack.length < sp → Raises (.pop rd) s .unreachable) ∧
    (sp < 13 → Raises .popa s .stackUnderflow) ∧
    (13 ≤ sp → s.stack.length < sp → Raises .popa s .unreachable)

/-- PUSH rd then POP rd restores every register; only PC differs, and r14 itself ends one higher than pushed. The
property of 47_stack.md R190 and R191, with the exception of 90_conflicts.md C6. Decisions D16, D23 (logs 22,
27). -/
def Obligations.PushThenPopRestoresRegisterAndSp : Prop :=
  ∀ (s : State) (rd : Reg) (w v : Word), s.Inv → (s.reg spReg).toNat < s.stack.length →
    s.main.get (s.reg pcReg).toNat = .ok w → decode w = .push rd →
    s.main.get (s.reg pcReg + 1).toNat = .ok v → decode v = .pop rd →
    ∃ t u, step s = .next t ∧ step t = .next u ∧ t.result = .ok ∧ u.result = .ok ∧
      RegsKeptBut [pcReg] s u ∧ MainKept s u ∧
      u.reg pcReg = if rd = pcReg then s.reg pcReg + 1 else s.reg pcReg + 2

/-- POPA restores r0 to r12 and SP from what PUSHA saved, whatever the registers held in between. 47_stack.md
R198. Decisions D13, D14, D16 (logs 19, 20, 22). -/
def Obligations.PopaRestoresWhatPushaSaved : Prop :=
  ∀ s t u : State, s.Inv → (s.reg spReg).toNat + 13 ≤ s.stack.length → exec .pusha s = .next t →
    u.stack = t.stack → u.reg spReg = t.reg spReg →
    ∃ v, exec .popa u = .next v ∧ v.result = .ok ∧ v.reg spReg = s.reg spReg ∧
      ∀ r : Reg, r.toNat < 13 → v.reg r = s.reg r

/-- JUMP and JUMPR with a condition code above 3 raise InvalidJumpCondition with that code, whatever the flags
hold. 60_exceptions.md R225; 48_jumps.md R202. That nothing is written is 40_step_cycle.md R113, the spec's
own decision D12 (log 18); the four bits of JUMP's code are D2 (log 8). -/
def Obligations.ConditionCodesAbove3Fault : Prop :=
  ∀ (s : State) (rd : Reg) (c : BitVec 4) (off : BitVec 8) (d : BitVec 3),
    (4 ≤ c.toNat → Raises (.jump rd c) s (.invalidJumpCondition c.toNat)) ∧
    (4 ≤ d.toNat → Raises (.jumpr off d) s (.invalidJumpCondition d.toNat)) ∧
    (c.toNat ≤ 3 → ∃ t, exec (.jump rd c) s = .next t ∧ t.result = .ok) ∧
    (d.toNat ≤ 3 → ∃ t, exec (.jumpr off d) s = .next t ∧ t.result = .ok)

/-- JUMP taken lands on x[rd], JUMPR taken on PC + off + 1, neither taken on PC + 1; what each writes to PC on the
way. 48_jumps.md R200 to R203. The offset of JUMPR as two's complement is item G1 (30_encoding.md R84), the
wrapping sums are the spec's own decision D8 (R200, R201), both log 14; the four bits of JUMP's code are D2
(log 8). -/
def Obligations.JumpsCompleteAndLandWhereTheTableSays : Prop :=
  (∀ (s : State) (rd : Reg) (c : BitVec 4), c.toNat ≤ 3 →
    (∃ t, exec (.jump rd c) s = .next t ∧ t.result = .ok ∧
      (Taken s c.toNat → ((t.reg pcReg).toNat : Int) = (((s.reg rd).toNat : Int) - 1) % 65536) ∧
      (¬ Taken s c.toNat → t.reg pcReg = s.reg pcReg) ∧
      RegsKeptBut [pcReg] s t ∧ MainKept s t ∧ StackKept s t) ∧
    ∀ w, s.main.get (s.reg pcReg).toNat = .ok w → decode w = .jump rd c →
      ∃ u, step s = .next u ∧ u.result = .ok ∧
        (Taken s c.toNat → u.reg pcReg = s.reg rd) ∧
        (¬ Taken s c.toNat → (u.reg pcReg).toNat = ((s.reg pcReg).toNat + 1) % 65536)) ∧
  ∀ (s : State) (off : BitVec 8) (c : BitVec 3), c.toNat ≤ 3 →
    (∃ t, exec (.jumpr off c) s = .next t ∧ t.result = .ok ∧
      (Taken s c.toNat → ((t.reg pcReg).toNat : Int) = (((s.reg pcReg).toNat : Int) + off.toInt) % 65536) ∧
      (¬ Taken s c.toNat → t.reg pcReg = s.reg pcReg) ∧
      RegsKeptBut [pcReg] s t ∧ MainKept s t ∧ StackKept s t) ∧
    ∀ w, s.main.get (s.reg pcReg).toNat = .ok w → decode w = .jumpr off c →
      ∃ u, step s = .next u ∧ u.result = .ok ∧
        (Taken s c.toNat →
          ((u.reg pcReg).toNat : Int) = (((s.reg pcReg).toNat : Int) + off.toInt + 1) % 65536) ∧
        (¬ Taken s c.toNat → (u.reg pcReg).toNat = ((s.reg pcReg).toNat + 1) % 65536)

/-- Every word with opcode 0 is NOP, which changes nothing; the step only adds 1 to PC.
49_nop_interrupt_invalid.md R210. That bits 15:5 are ignored is the spec's own decision D9 (log 15). -/
def Obligations.NopChangesNothingButPc : Prop :=
  (∀ w : Word, w.toNat % 32 = 0 → decode w = .nop) ∧ encode .nop = 0 ∧ (∀ w, encode (.invalid w) = 0) ∧
    (∀ s : State, ∃ t, exec .nop s = .next t ∧ t.result = .ok ∧ NothingChanged s t) ∧
    ∀ (s : State) (w : Word), s.main.get (s.reg pcReg).toNat = .ok w → w.toNat % 32 = 0 →
      ∃ t, step s = .next t ∧ t.result = .ok ∧ (t.reg pcReg).toNat = ((s.reg pcReg).toNat + 1) % 65536 ∧
        RegsKeptBut [pcReg] s t ∧ MainKept s t ∧ StackKept s t

/-- INT with any immediate and INVALID with any word complete and change nothing; the step only adds 1 to PC.
49_nop_interrupt_invalid.md R211 (the source's own text) and R212 (decision D10, log 16). -/
def Obligations.IntAndInvalidChangeNothingButPc : Prop :=
  ∀ (s : State) (i : Instr), ((∃ imm, i = .int imm) ∨ ∃ w, i = .invalid w) →
    (∃ t, exec i s = .next t ∧ t.result = .ok ∧ NothingChanged s t) ∧
    ∀ w, s.main.get (s.reg pcReg).toNat = .ok w → decode w = i →
      ∃ u, step s = .next u ∧ u.result = .ok ∧ u.reg pcReg = s.reg pcReg + 1 ∧
        RegsKeptBut [pcReg] s u ∧ MainKept s u ∧ StackKept s u

/-- The host reads and writes single words of main memory within bounds, and out of bounds gets the error with
nothing changed. 20_memory.md R51, R52; 00_scope.md R7 (3). Decision D16 (log 22). -/
def Obligations.HostSingleWordAccessIsBoundsChecked : Prop :=
  ∀ (s : State) (pos : Nat) (v : Word), s.main.wf = true →
    (pos < s.main.length →
      (∃ x, s.main.get pos = .ok x ∧ perform (.read pos) s = some (s, .word x)) ∧
      ∃ t, perform (.write pos v) s = some (t, .ok) ∧ t.main.get pos = .ok v ∧
        (∀ a : Nat, a ≠ pos → t.main.get a = s.main.get a) ∧
        t.regs = s.regs ∧ t.stack = s.stack ∧ t.result = s.result) ∧
    (s.main.length ≤ pos →
      perform (.read pos) s = some (s, .fault (.pointerOutOfRange s.main.length pos)) ∧
      perform (.write pos v) s = some (s, .fault (.pointerOutOfRange s.main.length pos)))

/-- A host range access reads or writes exactly its window, or gives PointerRangeOverflow with nothing changed.
20_memory.md R53 to R56, with the window of 90_conflicts.md C4. Decision D16 (log 22). -/
def Obligations.HostRangeAccessIsAllOrNothing : Prop :=
  ∀ (s : State) (pos : Nat) (vs : List Word), s.main.wf = true →
    (pos + vs.length ≤ s.main.length →
      (∃ ws, perform (.readRange pos vs.length) s = some (s, .words ws) ∧ ws.length = vs.length ∧
        ∀ k : Nat, k < vs.length → ∃ x, ws[k]? = some x ∧ s.main.get (pos + k) = .ok x) ∧
      ∃ t, perform (.writeRange pos vs) s = some (t, .ok) ∧
        (∀ (k : Nat) (x : Word), vs[k]? = some x → t.main.get (pos + k) = .ok x) ∧
        (∀ a : Nat, (a < pos ∨ pos + vs.length ≤ a) → t.main.get a = s.main.get a) ∧
        t.regs = s.regs ∧ t.stack = s.stack ∧ t.result = s.result) ∧
    (s.main.length < pos + vs.length →
      perform (.readRange pos vs.length) s =
        some (s, .fault (.pointerRangeOverflow s.main.length pos (pos + vs.length))) ∧
      perform (.writeRange pos vs) s =
        some (s, .fault (.pointerRangeOverflow s.main.length pos (pos + vs.length))))

/-- A host memory access never changes or reads a register or the stack memory. 00_scope.md R7. -/
def Obligations.HostAccessReachesMainMemoryOnly : Prop :=
  ∀ (x : Transaction) (s t u : State) (a : Answer), x.isHostAccess = true → perform x s = some (t, a) →
    t.regs = s.regs ∧ t.stack = s.stack ∧ t.result = s.result ∧
    (u.main = s.main → perform x u = some (u.setMain t.main, a))

/-- RESET sets PC to INITIAL_PC, whatever word it is, and main memory holds the words supplied. 10_state.md R40,
R43. -/
def Obligations.ResetSetsPcAndKeepsTheSuppliedMemory : Prop :=
  ∀ (ws : List Word) (pc : Word) (n : Nat),
    let s := State.resetWith (Memory.ofWords ws) pc n
    s.reg pcReg = pc ∧ s.main.length = ws.length ∧
    (∀ (a : Nat) (x : Word), ws[a]? = some x → s.main.get a = .ok x) ∧
    (ws.length ≤ pc.toNat →
      ∃ t, step s = .next t ∧ t.result = .fault (.pointerOutOfRange ws.length pc.toNat)) ∧
    (pc.toNat < ws.length → ∃ x t, ws[pc.toNat]? = some x ∧ exec (decode x) s = .next t)

/-- RESET leaves r0 to r12, FLAGS and SP at 0 and every stack cell at 0. 10_state.md R41, R42, R44: the spec's own
decision D15 (log 21). -/
def Obligations.ResetClearsRegistersFlagsSpAndStack : Prop :=
  ∀ (m : Memory) (pc : Word) (n : Nat),
    (∀ r : Reg, r ≠ pcReg → (State.resetWith m pc n).reg r = 0) ∧
    (State.resetWith m pc n).stack.length = n ∧
    ∀ a : Nat, a < n → (State.resetWith m pc n).stack.get a = .ok 0

/-- A run is the STEPs the host issues until its end-of-run condition first holds, and the core can still step.
70_reset_and_hazards.md R266. The spec's own decision D20 (log 25); the limit is the model's (log 33). -/
def Obligations.RunIssuesStepsUntilItsConditionHolds : Prop :=
  ∀ (ends : EndOfRun) (limit : Nat) (s : State), ∃ r, run ends limit s = some r ∧
    performAll (List.replicate r.answers.length .step) s = some (r.state, r.answers) ∧
    r.answers.length ≤ limit ∧
    (∀ (k : Nat) (t : State) (as : List Answer), k < r.answers.length →
      performAll (List.replicate k .step) s = some (t, as) → ends as t.main = false) ∧
    r.ended = ends r.answers r.state.main ∧ (r.ended = false → r.answers.length = limit) ∧
    ∃ t, step r.state = .next t

/-- A run that ends after a fixed number of steps issues exactly that many, whatever they return.
70_reset_and_hazards.md R266 (a). The spec's own decision D20 (log 25). -/
def Obligations.RunOfAFixedNumberOfStepsIssuesExactlyThatMany : Prop :=
  ∀ (n limit : Nat) (s : State), n ≤ limit → ∃ t as, run (endAfter n) limit s = some ⟨t, as, true⟩ ∧
    as.length = n ∧ performAll (List.replicate n .step) s = some (t, as)

/-- A run until a fault ends with the first step whose result is a fault, and goes on as long as there is none.
70_reset_and_hazards.md R266 (b). The spec's own decision D20 (log 25); the limit is the model's (log 33). -/
def Obligations.RunUntilAFaultEndsAtTheFirstOne : Prop :=
  (∀ (n limit : Nat) (s t u : State) (f : Fault), n < limit →
    performAll (List.replicate n .step) s = some (t, List.replicate n .ok) → step t = .next u →
    u.result = .fault f →
    run endAtFirstFault limit s = some ⟨u, List.replicate n .ok ++ [.fault f], true⟩) ∧
  ∀ (limit : Nat) (s t : State),
    performAll (List.replicate limit .step) s = some (t, List.replicate limit .ok) →
    run endAtFirstFault limit s = some ⟨t, List.replicate limit .ok, false⟩
end

