-- ==== Sys2Proof/Laws/Codec.lean ====
section
/-! SUPPORT. The fields of the words that each format's encoder builds (30_encoding.md R87, R90). -/

namespace Sys2Proof

/-- The opcode field is the word modulo 32 (30_encoding.md R81). -/
theorem opcodeOf_toNat (w : Word) : (opcodeOf w).toNat = w.toNat % 32 := by simp [opcodeOf]

/-- One bit of a placed field. -/
theorem place_getLsbD {n : Nat} (v : BitVec n) (lo j : Nat) :
    (place v lo).getLsbD j = (decide (j < 16) && decide (lo ≤ j) && v.getLsbD (j - lo)) := by
  unfold place
  rw [BitVec.getLsbD_shiftLeft, BitVec.getLsbD_setWidth]
  by_cases h : j < 16
  · by_cases h' : lo ≤ j
    · simp [h, h', show ¬ j < lo by omega, show j - lo < 16 by omega]
    · simp [h', show j < lo by omega]
  · simp [h]

/-- A field of a word put back where it stands keeps exactly the word's bits there. -/
theorem place_extractLsb' (w : Word) (lo n : Nat) :
    place (w.extractLsb' lo n) lo = w &&& place (BitVec.allOnes n) lo := by
  refine BitVec.eq_of_getLsbD_eq fun j hj => ?_
  rw [BitVec.getLsbD_and, place_getLsbD, place_getLsbD, BitVec.getLsbD_extractLsb', BitVec.getLsbD_allOnes]
  by_cases h : lo ≤ j
  · simp [hj, h, show lo + (j - lo) = j by omega, Bool.and_comm]
  · simp [h]

theorem place_opcodeOf (w : Word) : place (opcodeOf w) 0 = w &&& 0x001F := place_extractLsb' w 0 5
theorem place_reg0Of (w : Word) : place (reg0Of w) 5 = w &&& 0x01E0 := place_extractLsb' w 5 4
theorem place_reg1Of (w : Word) : place (reg1Of w) 9 = w &&& 0x1E00 := place_extractLsb' w 9 4
theorem place_cond4Of (w : Word) : place (cond4Of w) 9 = w &&& 0x1E00 := place_extractLsb' w 9 4
theorem place_cond3Of (w : Word) : place (cond3Of w) 5 = w &&& 0x00E0 := place_extractLsb' w 5 3
theorem place_argOf (w : Word) : place (argOf w) 8 = w &&& 0xFF00 := place_extractLsb' w 8 8

/-! Encoding a word's own fields keeps the bits of the format's fields. -/

theorem encodeZ_fields {w : Word} {op : BitVec 5} (h : op = opcodeOf w) : encodeZ op = w &&& 0x001F := by
  rw [h, encodeZ, place_opcodeOf]

theorem encodeR_fields {w : Word} {op : BitVec 5} (h : op = opcodeOf w) :
    encodeR op (reg0Of w) = w &&& 0x01FF := by
  rw [h, encodeR, place_opcodeOf, place_reg0Of, ← BitVec.and_or_distrib_left]; rfl

theorem encodeRR_fields {w : Word} {op : BitVec 5} (h : op = opcodeOf w) :
    encodeRR op (reg0Of w) (reg1Of w) = w &&& 0x1FFF := by
  rw [h, encodeRR, place_opcodeOf, place_reg0Of, place_reg1Of, ← BitVec.and_or_distrib_left,
    ← BitVec.and_or_distrib_left]; rfl

theorem encodeI_fields {w : Word} {op : BitVec 5} (h : op = opcodeOf w) :
    encodeI op (argOf w) = w &&& 0xFF1F := by
  rw [h, encodeI, place_opcodeOf, place_argOf, ← BitVec.and_or_distrib_left]; rfl

theorem encodeSC_fields {w : Word} {op : BitVec 5} (h : op = opcodeOf w) :
    encodeSC op (argOf w) (cond3Of w) = w &&& 0xFFFF := by
  rw [h, encodeSC, place_opcodeOf, place_argOf, place_cond3Of, ← BitVec.and_or_distrib_left,
    ← BitVec.and_or_distrib_left]; rfl

@[simp] theorem opcodeOf_encodeZ (op : BitVec 5) :
    opcodeOf (encodeZ op) = op := by
  refine BitVec.eq_of_getLsbD_eq fun j hj => ?_
  simp only [opcodeOf, encodeZ, BitVec.getLsbD_extractLsb', place_getLsbD]
  interval_cases j <;> simp

@[simp] theorem opcodeOf_encodeR (op : BitVec 5) (rd : Reg) :
    opcodeOf (encodeR op rd) = op := by
  refine BitVec.eq_of_getLsbD_eq fun j hj => ?_
  simp only [opcodeOf, encodeR, BitVec.getLsbD_extractLsb', BitVec.getLsbD_or, place_getLsbD]
  interval_cases j <;> simp

@[simp] theorem reg0Of_encodeR (op : BitVec 5) (rd : Reg) :
    reg0Of (encodeR op rd) = rd := by
  refine BitVec.eq_of_getLsbD_eq fun j hj => ?_
  simp only [reg0Of, encodeR, BitVec.getLsbD_extractLsb', BitVec.getLsbD_or, place_getLsbD]
  interval_cases j <;> simp

@[simp] theorem opcodeOf_encodeRR (op : BitVec 5) (rd rs : Reg) :
    opcodeOf (encodeRR op rd rs) = op := by
  refine BitVec.eq_of_getLsbD_eq fun j hj => ?_
  simp only [opcodeOf, encodeRR, BitVec.getLsbD_extractLsb', BitVec.getLsbD_or, place_getLsbD]
  interval_cases j <;> simp

@[simp] theorem reg0Of_encodeRR (op : BitVec 5) (rd rs : Reg) :
    reg0Of (encodeRR op rd rs) = rd := by
  refine BitVec.eq_of_getLsbD_eq fun j hj => ?_
  simp only [reg0Of, encodeRR, BitVec.getLsbD_extractLsb', BitVec.getLsbD_or, place_getLsbD]
  interval_cases j <;> simp

@[simp] theorem reg1Of_encodeRR (op : BitVec 5) (rd rs : Reg) :
    reg1Of (encodeRR op rd rs) = rs := by
  refine BitVec.eq_of_getLsbD_eq fun j hj => ?_
  simp only [reg1Of, encodeRR, BitVec.getLsbD_extractLsb', BitVec.getLsbD_or, place_getLsbD]
  interval_cases j <;> simp

@[simp] theorem cond4Of_encodeRR (op : BitVec 5) (rd rs : Reg) :
    cond4Of (encodeRR op rd rs) = rs := by
  refine BitVec.eq_of_getLsbD_eq fun j hj => ?_
  simp only [cond4Of, encodeRR, BitVec.getLsbD_extractLsb', BitVec.getLsbD_or, place_getLsbD]
  interval_cases j <;> simp

@[simp] theorem opcodeOf_encodeI (op : BitVec 5) (g : BitVec 8) :
    opcodeOf (encodeI op g) = op := by
  refine BitVec.eq_of_getLsbD_eq fun j hj => ?_
  simp only [opcodeOf, encodeI, BitVec.getLsbD_extractLsb', BitVec.getLsbD_or, place_getLsbD]
  interval_cases j <;> simp

@[simp] theorem argOf_encodeI (op : BitVec 5) (g : BitVec 8) :
    argOf (encodeI op g) = g := by
  refine BitVec.eq_of_getLsbD_eq fun j hj => ?_
  simp only [argOf, encodeI, BitVec.getLsbD_extractLsb', BitVec.getLsbD_or, place_getLsbD]
  interval_cases j <;> simp

@[simp] theorem opcodeOf_encodeSC (op : BitVec 5) (g : BitVec 8) (c : BitVec 3) :
    opcodeOf (encodeSC op g c) = op := by
  refine BitVec.eq_of_getLsbD_eq fun j hj => ?_
  simp only [opcodeOf, encodeSC, BitVec.getLsbD_extractLsb', BitVec.getLsbD_or, place_getLsbD]
  interval_cases j <;> simp

@[simp] theorem argOf_encodeSC (op : BitVec 5) (g : BitVec 8) (c : BitVec 3) :
    argOf (encodeSC op g c) = g := by
  refine BitVec.eq_of_getLsbD_eq fun j hj => ?_
  simp only [argOf, encodeSC, BitVec.getLsbD_extractLsb', BitVec.getLsbD_or, place_getLsbD]
  interval_cases j <;> simp

@[simp] theorem cond3Of_encodeSC (op : BitVec 5) (g : BitVec 8) (c : BitVec 3) :
    cond3Of (encodeSC op g c) = c := by
  refine BitVec.eq_of_getLsbD_eq fun j hj => ?_
  simp only [cond3Of, encodeSC, BitVec.getLsbD_extractLsb', BitVec.getLsbD_or, place_getLsbD]
  interval_cases j <;> simp

end Sys2Proof
end

