-- ==== Sys2Proof/Laws/Memory.lean ====
section
/-! SUPPORT. The memory block: what each operation does to the canonical form and to the cells. -/

namespace Sys2Proof.Machine

/-! ### Listings -/

/-- A listing that rises from a higher bound rises from a lower one. -/
theorem cellsWf_mono {len lo lo' : Nat} {cells : List (Nat × Word)} (h : cellsWf len lo' cells = true)
    (hle : lo ≤ lo') : cellsWf len lo cells = true := by
  cases cells with
  | nil => rfl
  | cons c rest =>
    obtain ⟨a, w⟩ := c
    simp only [cellsWf, Bool.and_eq_true, decide_eq_true_eq] at h ⊢
    exact ⟨⟨⟨by omega, h.1.1.2⟩, h.1.2⟩, h.2⟩

/-- A listing stays canonical when the block gets longer. -/
theorem cellsWf_len {len len' lo : Nat} {cells : List (Nat × Word)} (h : cellsWf len lo cells = true)
    (hle : len ≤ len') : cellsWf len' lo cells = true := by
  induction cells generalizing lo with
  | nil => rfl
  | cons c rest ih =>
    obtain ⟨a, w⟩ := c
    simp only [cellsWf, Bool.and_eq_true, decide_eq_true_eq] at h ⊢
    exact ⟨⟨⟨h.1.1.1, by omega⟩, h.1.2⟩, ih h.2⟩

/-- Below its first possible address a canonical listing reads as unlisted. -/
theorem lookupCell_below {len lo p : Nat} {cells : List (Nat × Word)} (h : cellsWf len lo cells = true)
    (hp : p < lo) : lookupCell cells p = Config.unlistedWord := by
  induction cells generalizing lo with
  | nil => rfl
  | cons c rest ih =>
    obtain ⟨a, w⟩ := c
    simp only [cellsWf, Bool.and_eq_true, decide_eq_true_eq] at h
    rw [lookupCell, if_neg (by omega)]
    exact ih h.2 (by omega)

/-- A canonical listing with one more word in front is canonical. -/
theorem cellsWf_consCell {len lo p : Nat} {v : Word} {rest : List (Nat × Word)} (hlo : lo ≤ p) (hp : p < len)
    (h : cellsWf len (p + 1) rest = true) : cellsWf len lo (consCell p v rest) = true := by
  unfold consCell
  split
  · exact cellsWf_mono h (by omega)
  · simp_all [cellsWf]

/-- Reading from a listing with one more word in front. -/
theorem lookupCell_consCell {len p : Nat} {v : Word} {rest : List (Nat × Word)}
    (h : cellsWf len (p + 1) rest = true) (q : Nat) :
    lookupCell (consCell p v rest) q = if q = p then v else lookupCell rest q := by
  unfold consCell
  split
  · rename_i hv
    split
    · rename_i hq
      rw [hv, hq]
      exact lookupCell_below h (Nat.lt_succ_self p)
    · rfl
  · simp only [lookupCell, eq_comm]

/-- A write keeps a listing canonical. -/
theorem cellsWf_insertCell {len lo p : Nat} {v : Word} {cells : List (Nat × Word)}
    (h : cellsWf len lo cells = true) (hlo : lo ≤ p) (hp : p < len) :
    cellsWf len lo (insertCell cells p v) = true := by
  induction cells generalizing lo with
  | nil => exact cellsWf_consCell hlo hp rfl
  | cons c rest ih =>
    obtain ⟨a, w⟩ := c
    have h' := h
    simp only [cellsWf, Bool.and_eq_true, decide_eq_true_eq] at h
    unfold insertCell
    split
    · refine cellsWf_consCell hlo hp ?_
      simp only [cellsWf, Bool.and_eq_true, decide_eq_true_eq]
      exact ⟨⟨⟨by omega, h.1.1.2⟩, h.1.2⟩, h.2⟩
    · split
      · rename_i heq
        subst heq
        exact cellsWf_consCell hlo hp h.2
      · simp only [cellsWf, Bool.and_eq_true, decide_eq_true_eq]
        exact ⟨⟨⟨h.1.1.1, h.1.1.2⟩, h.1.2⟩, ih h.2 (by omega)⟩

/-- Reading after a write to a canonical listing. -/
theorem lookupCell_insertCell {len lo p : Nat} {v : Word} {cells : List (Nat × Word)}
    (h : cellsWf len lo cells = true) (q : Nat) :
    lookupCell (insertCell cells p v) q = if q = p then v else lookupCell cells q := by
  induction cells generalizing lo with
  | nil => exact lookupCell_consCell (len := len) rfl q
  | cons c rest ih =>
    obtain ⟨a, w⟩ := c
    simp only [cellsWf, Bool.and_eq_true, decide_eq_true_eq] at h
    unfold insertCell
    split
    · refine lookupCell_consCell (len := len) ?_ q
      simp only [cellsWf, Bool.and_eq_true, decide_eq_true_eq]
      exact ⟨⟨⟨by omega, h.1.1.2⟩, h.1.2⟩, h.2⟩
    · split
      · rename_i heq
        subst heq
        rw [lookupCell_consCell h.2 q]
        by_cases hq : q = p
        · simp [hq]
        · simp [hq, lookupCell, Ne.symm hq]
      · rename_i hlt hne
        simp only [lookupCell]
        rw [ih h.2]
        by_cases haq : a = q
        · subst haq
          simp [Ne.symm hne]
        · simp [haq]

/-- A run of writes keeps a listing canonical. -/
theorem cellsWf_insertCells {len p : Nat} {vs : List Word} {cells : List (Nat × Word)}
    (h : cellsWf len 0 cells = true) (hp : p + vs.length ≤ len) :
    cellsWf len 0 (insertCells cells p vs) = true := by
  induction vs generalizing cells p with
  | nil => exact h
  | cons v vs ih =>
    simp only [List.length_cons] at hp
    exact ih (cellsWf_insertCell h (Nat.zero_le p) (by omega)) (by omega)

/-- Reading after a run of writes: inside the window the word written there, outside it the old one. -/
theorem lookupCell_insertCells {len p : Nat} {vs : List Word} {cells : List (Nat × Word)}
    (h : cellsWf len 0 cells = true) (hp : p + vs.length ≤ len) (q : Nat) :
    lookupCell (insertCells cells p vs) q =
      if p ≤ q then (vs[q - p]?).getD (lookupCell cells q) else lookupCell cells q := by
  induction vs generalizing cells p with
  | nil => simp [insertCells]
  | cons v vs ih =>
    simp only [List.length_cons] at hp
    rw [insertCells, ih (cellsWf_insertCell h (Nat.zero_le p) (by omega)) (by omega),
      lookupCell_insertCell h]
    rcases Nat.lt_trichotomy q p with hlt | heq | hgt
    · simp [show ¬ p + 1 ≤ q by omega, show ¬ p ≤ q by omega, show q ≠ p by omega]
    · simp [heq]
    · obtain ⟨k, rfl⟩ : ∃ k, q = p + 1 + k := ⟨q - (p + 1), by omega⟩
      simp [show p + 1 + k - p = k + 1 by omega, show p ≤ p + 1 + k by omega,
        show p + 1 + k ≠ p by omega]

/-- A range read gives the words of its window in address order. -/
@[simp] theorem lookupCells_length (cells : List (Nat × Word)) (p n : Nat) :
    (lookupCells cells p n).length = n := by
  induction n generalizing p with
  | zero => rfl
  | succ n ih => simp [lookupCells, ih]

/-- The `k`-th word of a range read is the word at `p + k`. -/
theorem lookupCells_getElem? (cells : List (Nat × Word)) (p n k : Nat) :
    (lookupCells cells p n)[k]? = if k < n then some (lookupCell cells (p + k)) else none := by
  induction n generalizing p k with
  | zero => simp [lookupCells]
  | succ n ih =>
    cases k with
    | zero => simp [lookupCells]
    | succ k => simp [lookupCells, ih, Nat.add_assoc, Nat.add_comm 1 k]

/-- Two canonical listings that read alike everywhere are the same list. -/
theorem cellsWf_ext {len lo : Nat} {c d : List (Nat × Word)} (hc : cellsWf len lo c = true)
    (hd : cellsWf len lo d = true) (h : ∀ q, lookupCell c q = lookupCell d q) : c = d := by
  induction c generalizing lo d with
  | nil =>
    cases d with
    | nil => rfl
    | cons y rest =>
      obtain ⟨b, w⟩ := y
      simp only [cellsWf, Bool.and_eq_true, decide_eq_true_eq] at hd
      exact absurd (by simpa [lookupCell] using (h b).symm) hd.1.2
  | cons x xs ih =>
    obtain ⟨a, v⟩ := x
    simp only [cellsWf, Bool.and_eq_true, decide_eq_true_eq] at hc
    cases d with
    | nil => exact absurd (by simpa [lookupCell] using h a) hc.1.2
    | cons y ys =>
      obtain ⟨b, w⟩ := y
      simp only [cellsWf, Bool.and_eq_true, decide_eq_true_eq] at hd
      have hab : a = b := by
        rcases Nat.lt_trichotomy a b with hlt | heq | hgt
        · have := h a
          rw [lookupCell, if_pos rfl, lookupCell, if_neg (by omega),
            lookupCell_below hd.2 (by omega)] at this
          exact absurd this hc.1.2
        · exact heq
        · have := (h b).symm
          rw [lookupCell, if_pos rfl, lookupCell, if_neg (by omega),
            lookupCell_below hc.2 (by omega)] at this
          exact absurd this hd.1.2
      subst hab
      have hvw : v = w := by simpa [lookupCell] using h a
      subst hvw
      have : xs = ys := by
        refine ih hc.2 hd.2 fun q => ?_
        by_cases hq : a = q
        · subst hq
          rw [lookupCell_below hc.2 (Nat.lt_succ_self a), lookupCell_below hd.2 (Nat.lt_succ_self a)]
        · simpa [lookupCell, hq] using h q
      rw [this]

/-! ### The four operations of a block -/

/-- What `get` can answer. -/
theorem Memory.get_eq (m : Memory) (a : Nat) :
    (a < m.length ∧ m.get a = .ok (m.cell a)) ∨
      (m.length ≤ a ∧ m.get a = .error (.pointerOutOfRange m.length a)) := by
  unfold Memory.get
  split
  · exact .inl ⟨‹_›, rfl⟩
  · exact .inr ⟨by omega, rfl⟩

/-- What `set` can answer. -/
theorem Memory.set_eq (m : Memory) (a : Nat) (v : Word) :
    (a < m.length ∧ m.set a v = .ok ⟨m.length, insertCell m.cells a v⟩) ∨
      (m.length ≤ a ∧ m.set a v = .error (.pointerOutOfRange m.length a)) := by
  unfold Memory.set
  split
  · exact .inl ⟨‹_›, rfl⟩
  · exact .inr ⟨by omega, rfl⟩

/-- What `get_range` can answer. -/
theorem Memory.getRange_eq (m : Memory) (a n : Nat) :
    (a + n ≤ m.length ∧ m.getRange a n = .ok (lookupCells m.cells a n)) ∨
      (m.length < a + n ∧ m.getRange a n = .error (.pointerRangeOverflow m.length a (a + n))) := by
  unfold Memory.getRange
  split
  · exact .inr ⟨by omega, rfl⟩
  · exact .inl ⟨by omega, rfl⟩

/-- What `set_range` can answer. -/
theorem Memory.setRange_eq (m : Memory) (a : Nat) (vs : List Word) :
    (a + vs.length ≤ m.length ∧ m.setRange a vs = .ok ⟨m.length, insertCells m.cells a vs⟩) ∨
      (m.length < a + vs.length ∧
        m.setRange a vs = .error (.pointerRangeOverflow m.length a (a + vs.length))) := by
  unfold Memory.setRange
  split
  · exact .inr ⟨by omega, rfl⟩
  · exact .inl ⟨by omega, rfl⟩

/-- `set` keeps the length and the canonical form. -/
theorem Memory.set_wf {m m' : Memory} {a : Nat} {v : Word} (h : m.set a v = .ok m') (hm : m.wf = true) :
    m'.length = m.length ∧ m'.wf = true := by
  rcases Memory.set_eq m a v with ⟨ha, he⟩ | ⟨_, he⟩ <;> rw [he] at h <;> cases h
  exact ⟨rfl, cellsWf_insertCell hm (Nat.zero_le a) ha⟩

/-- `set` keeps the length. -/
theorem Memory.set_length {m m' : Memory} {a : Nat} {v : Word} (h : m.set a v = .ok m') :
    m'.length = m.length := by
  rcases Memory.set_eq m a v with ⟨_, he⟩ | ⟨_, he⟩ <;> rw [he] at h <;> cases h
  rfl

/-- `set_range` keeps the length and the canonical form. -/
theorem Memory.setRange_wf {m m' : Memory} {a : Nat} {vs : List Word} (h : m.setRange a vs = .ok m')
    (hm : m.wf = true) : m'.length = m.length ∧ m'.wf = true := by
  rcases Memory.setRange_eq m a vs with ⟨ha, he⟩ | ⟨_, he⟩ <;> rw [he] at h <;> cases h
  exact ⟨rfl, cellsWf_insertCells hm ha⟩

/-- `set_range` keeps the length. -/
theorem Memory.setRange_length {m m' : Memory} {a : Nat} {vs : List Word} (h : m.setRange a vs = .ok m') :
    m'.length = m.length := by
  rcases Memory.setRange_eq m a vs with ⟨_, he⟩ | ⟨_, he⟩ <;> rw [he] at h <;> cases h
  rfl

/-- A cell after `set`: the word written, or the old one. -/
theorem Memory.get_set {m m' : Memory} {a : Nat} {v : Word} (h : m.set a v = .ok m') (hm : m.wf = true)
    (b : Nat) : m'.get b = if b = a then .ok v else m.get b := by
  rcases Memory.set_eq m a v with ⟨ha, he⟩ | ⟨_, he⟩ <;> rw [he] at h <;> cases h
  unfold Memory.get Memory.cell
  rw [lookupCell_insertCell hm]
  by_cases hb : b = a
  · simp [hb, ha]
  · simp [hb]

/-- A cell after `set_range`: inside the window the word written there, outside it the old one. -/
theorem Memory.get_setRange {m m' : Memory} {a : Nat} {vs : List Word} (h : m.setRange a vs = .ok m')
    (hm : m.wf = true) (b : Nat) :
    m'.get b = if h : a ≤ b ∧ b < a + vs.length then .ok (vs[b - a]'(by omega)) else m.get b := by
  rcases Memory.setRange_eq m a vs with ⟨ha, he⟩ | ⟨_, he⟩ <;> rw [he] at h <;> cases h
  unfold Memory.get Memory.cell
  rw [lookupCell_insertCells hm ha]
  by_cases hin : a ≤ b ∧ b < a + vs.length
  · have hlt : b - a < vs.length := by omega
    simp [hin.1, show b < m.length by omega, List.getElem?_eq_getElem hlt, show b < a + vs.length from hin.2]
  · rw [dif_neg hin]
    by_cases hab : a ≤ b
    · have : vs[b - a]? = none := List.getElem?_eq_none (by omega)
      simp [hab, this]
    · simp [hab]

/-- Two canonical blocks that answer every `get` alike are the same block. -/
theorem Memory.ext_get {m n : Memory} (hm : m.wf = true) (hn : n.wf = true)
    (h : ∀ a, m.get a = n.get a) : m = n := by
  have hlen : m.length = n.length := by
    rcases Memory.get_eq m m.length with ⟨hl, _⟩ | ⟨_, hg⟩
    · omega
    · rcases Memory.get_eq n m.length with ⟨_, hg'⟩ | ⟨_, hg'⟩ <;> rw [h, hg'] at hg
      · cases hg
      · exact (Fault.pointerOutOfRange.inj (Except.error.inj hg)).1.symm
  obtain ⟨ml, mc⟩ := m
  obtain ⟨nl, nc⟩ := n
  subst hlen
  congr
  refine cellsWf_ext hm hn fun q => ?_
  have hq := h q
  unfold Memory.get Memory.cell at hq
  by_cases hlt : q < ml
  · simpa [hlt] using hq
  · have out : ∀ {lo c}, cellsWf ml lo c = true → lookupCell c q = Config.unlistedWord := by
      intro lo c hc
      induction c generalizing lo with
      | nil => rfl
      | cons x xs ih =>
        obtain ⟨a, v⟩ := x
        simp only [cellsWf, Bool.and_eq_true, decide_eq_true_eq] at hc
        rw [lookupCell, if_neg (by omega)]
        exact ih hc.2
    rw [out hm, out hn]

/-- A block with nothing listed is canonical. -/
@[simp] theorem Memory.wf_empty (n : Nat) : (Memory.mk n []).wf = true := rfl

/-- A block built from words is canonical. -/
theorem Memory.wf_ofWords (ws : List Word) : (Memory.ofWords ws).wf = true :=
  cellsWf_insertCells rfl (by simp [Memory.ofWords])

/-- A block built from words holds them in order from address 0. -/
theorem Memory.get_ofWords (ws : List Word) (a : Nat) :
    (Memory.ofWords ws).get a =
      if h : a < ws.length then .ok ws[a] else .error (.pointerOutOfRange ws.length a) := by
  unfold Memory.get Memory.cell Memory.ofWords
  rw [lookupCell_insertCells (len := ws.length) rfl (by simp)]
  by_cases h : a < ws.length <;> simp [h, lookupCell]

end Sys2Proof.Machine
end

