-- ==== Sys2Proof/Laws/State.lean ====
section
/-! SUPPORT. What each update of the state leaves in each field: one lemma per field per update, so that no
later proof unfolds a record update. -/

namespace Sys2Proof.Machine

/-! ### Field by field, true by unfolding -/

@[simp] theorem State.setReg_main (s : State) (r : Reg) (v : Word) : (s.setReg r v).main = s.main := rfl
@[simp] theorem State.setReg_stack (s : State) (r : Reg) (v : Word) : (s.setReg r v).stack = s.stack := rfl
@[simp] theorem State.setReg_result (s : State) (r : Reg) (v : Word) : (s.setReg r v).result = s.result := rfl

@[simp] theorem State.setPc_main (s : State) (v : Word) : (s.setPc v).main = s.main := rfl
@[simp] theorem State.setPc_stack (s : State) (v : Word) : (s.setPc v).stack = s.stack := rfl
@[simp] theorem State.setPc_result (s : State) (v : Word) : (s.setPc v).result = s.result := rfl

@[simp] theorem State.setSp_main (s : State) (v : Word) : (s.setSp v).main = s.main := rfl
@[simp] theorem State.setSp_stack (s : State) (v : Word) : (s.setSp v).stack = s.stack := rfl
@[simp] theorem State.setSp_result (s : State) (v : Word) : (s.setSp v).result = s.result := rfl

@[simp] theorem State.setFlags_main (s : State) (v : Word) : (s.setFlags v).main = s.main := rfl
@[simp] theorem State.setFlags_stack (s : State) (v : Word) : (s.setFlags v).stack = s.stack := rfl
@[simp] theorem State.setFlags_result (s : State) (v : Word) : (s.setFlags v).result = s.result := rfl

@[simp] theorem State.setOvf_main (s : State) (b : Bool) : (s.setOvf b).main = s.main := rfl
@[simp] theorem State.setOvf_stack (s : State) (b : Bool) : (s.setOvf b).stack = s.stack := rfl
@[simp] theorem State.setOvf_result (s : State) (b : Bool) : (s.setOvf b).result = s.result := rfl

@[simp] theorem State.setCmp_main (s : State) (b : Bool) : (s.setCmp b).main = s.main := rfl
@[simp] theorem State.setCmp_stack (s : State) (b : Bool) : (s.setCmp b).stack = s.stack := rfl
@[simp] theorem State.setCmp_result (s : State) (b : Bool) : (s.setCmp b).result = s.result := rfl

@[simp] theorem State.setMain_main (s : State) (m : Memory) : (s.setMain m).main = m := rfl
@[simp] theorem State.setMain_stack (s : State) (m : Memory) : (s.setMain m).stack = s.stack := rfl
@[simp] theorem State.setMain_result (s : State) (m : Memory) : (s.setMain m).result = s.result := rfl
@[simp] theorem State.setMain_reg (s : State) (m : Memory) (r : Reg) : (s.setMain m).reg r = s.reg r := rfl

@[simp] theorem State.setStack_main (s : State) (m : Memory) : (s.setStack m).main = s.main := rfl
@[simp] theorem State.setStack_stack (s : State) (m : Memory) : (s.setStack m).stack = m := rfl
@[simp] theorem State.setStack_result (s : State) (m : Memory) : (s.setStack m).result = s.result := rfl
@[simp] theorem State.setStack_reg (s : State) (m : Memory) (r : Reg) : (s.setStack m).reg r = s.reg r := rfl

@[simp] theorem State.setResult_main (s : State) (x : StepResult) : (s.setResult x).main = s.main := rfl
@[simp] theorem State.setResult_stack (s : State) (x : StepResult) : (s.setResult x).stack = s.stack := rfl
@[simp] theorem State.setResult_result (s : State) (x : StepResult) : (s.setResult x).result = x := rfl
@[simp] theorem State.setResult_reg (s : State) (x : StepResult) (r : Reg) :
    (s.setResult x).reg r = s.reg r := rfl

@[simp] theorem State.resetWith_main (m : Memory) (p : Word) (n : Nat) : (State.resetWith m p n).main = m := rfl
@[simp] theorem State.resetWith_stack (m : Memory) (p : Word) (n : Nat) :
    (State.resetWith m p n).stack = ⟨n, []⟩ := rfl
@[simp] theorem State.resetWith_result (m : Memory) (p : Word) (n : Nat) :
    (State.resetWith m p n).result = .ok := rfl

/-- `State.reset` is one RESET among those the host may ask for (log 3). -/
theorem State.reset_eq_resetWith :
    State.reset = State.resetWith ⟨Config.resetMemLen, []⟩ Config.resetInitialPc Config.resetStackLen := rfl

/-! ### Registers -/

@[simp] theorem flagsReg_toNat : flagsReg.toNat = 13 := rfl
@[simp] theorem pcReg_toNat : pcReg.toNat = 14 := rfl
@[simp] theorem spReg_toNat : spReg.toNat = 15 := rfl
@[simp] theorem flagsReg_ne_pcReg : flagsReg ≠ pcReg := by decide
@[simp] theorem flagsReg_ne_spReg : flagsReg ≠ spReg := by decide
@[simp] theorem pcReg_ne_flagsReg : pcReg ≠ flagsReg := by decide
@[simp] theorem pcReg_ne_spReg : pcReg ≠ spReg := by decide
@[simp] theorem spReg_ne_flagsReg : spReg ≠ flagsReg := by decide
@[simp] theorem spReg_ne_pcReg : spReg ≠ pcReg := by decide

/-- Two states with the same registers, memories and returned value are one state. -/
theorem State.ext_reg {s t : State} (hr : ∀ r, s.reg r = t.reg r) (hm : s.main = t.main)
    (hs : s.stack = t.stack) (hx : s.result = t.result) : s = t := by
  obtain ⟨sr, sm, ss, sx⟩ := s
  obtain ⟨tr, tm, ts, tx⟩ := t
  have : sr = tr := by
    refine Vector.ext fun i hi => ?_
    have := hr (BitVec.ofNat 4 i)
    simpa [State.reg, Nat.mod_eq_of_lt hi] using this
  simp_all

/-- Reading a register after a register write. -/
@[simp] theorem State.setReg_reg (s : State) (r q : Reg) (v : Word) :
    (s.setReg r v).reg q = if q = r then v else s.reg q := by
  unfold State.reg State.setReg
  simp only [Vector.getElem_set, ← BitVec.toNat_inj, eq_comm]

@[simp] theorem State.setPc_reg (s : State) (v : Word) (q : Reg) :
    (s.setPc v).reg q = if q = pcReg then v else s.reg q := State.setReg_reg ..

@[simp] theorem State.setSp_reg (s : State) (v : Word) (q : Reg) :
    (s.setSp v).reg q = if q = spReg then v else s.reg q := State.setReg_reg ..

@[simp] theorem State.setFlags_reg (s : State) (v : Word) (q : Reg) :
    (s.setFlags v).reg q = if q = flagsReg then v else s.reg q := State.setReg_reg ..

/-- Every register of a freshly reset core: PC holds INITIAL_PC, the others 0. -/
@[simp] theorem State.resetWith_reg (m : Memory) (p : Word) (n : Nat) (q : Reg) :
    (State.resetWith m p n).reg q = if q = pcReg then p else 0 := by
  unfold State.reg State.resetWith
  rw [Vector.getElem_set]
  by_cases h : q = pcReg
  · subst h; simp
  · have h14 : ¬ 14 = q.toNat := fun h' => h (BitVec.eq_of_toNat_eq h'.symm)
    rw [if_neg h14, if_neg h]
    simp

/-- The registers read as a run from index `i`. -/
@[simp] theorem State.regsFrom_length (s : State) (i n : Nat) : (s.regsFrom i n).length = n := by
  induction n generalizing i with
  | zero => rfl
  | succ n ih => simp [State.regsFrom, ih]

/-- The block of PUSHA has 13 words. -/
@[simp] theorem State.block_length (s : State) : s.block.length = 13 := State.regsFrom_length ..

@[simp] theorem State.setRegsFrom_main (s : State) (i : Nat) (vs : List Word) :
    (s.setRegsFrom i vs).main = s.main := by
  induction vs generalizing s i with
  | nil => rfl
  | cons v vs ih => simp [State.setRegsFrom, ih]

@[simp] theorem State.setRegsFrom_stack (s : State) (i : Nat) (vs : List Word) :
    (s.setRegsFrom i vs).stack = s.stack := by
  induction vs generalizing s i with
  | nil => rfl
  | cons v vs ih => simp [State.setRegsFrom, ih]

@[simp] theorem State.setRegsFrom_result (s : State) (i : Nat) (vs : List Word) :
    (s.setRegsFrom i vs).result = s.result := by
  induction vs generalizing s i with
  | nil => rfl
  | cons v vs ih => simp [State.setRegsFrom, ih]

@[simp] theorem State.setRegsFrom_setResult (s : State) (x : StepResult) (i : Nat) (vs : List Word) :
    (s.setResult x).setRegsFrom i vs = (s.setRegsFrom i vs).setResult x := by
  induction vs generalizing s i with
  | nil => rfl
  | cons v vs ih => exact ih (s.setReg _ v) _

@[simp] theorem State.setRegsFrom_setMain (s : State) (m : Memory) (i : Nat) (vs : List Word) :
    (s.setMain m).setRegsFrom i vs = (s.setRegsFrom i vs).setMain m := by
  induction vs generalizing s i with
  | nil => rfl
  | cons v vs ih => exact ih (s.setReg _ v) _

/-- Writing a run of registers that fits the file: register `i + k` gets the `k`-th word, the others are kept. -/
theorem State.setRegsFrom_reg (s : State) (i : Nat) (vs : List Word) (h : i + vs.length ≤ 16) (q : Reg) :
    (s.setRegsFrom i vs).reg q =
      if i ≤ q.toNat then (vs[q.toNat - i]?).getD (s.reg q) else s.reg q := by
  induction vs generalizing s i with
  | nil => simp [State.setRegsFrom]
  | cons v vs ih =>
    have hlen : i + 1 + vs.length ≤ 16 := by
      simp only [List.length_cons] at h
      omega
    have hi : i < 16 := by omega
    rw [State.setRegsFrom, ih _ _ hlen, State.setReg_reg]
    have hq : q = BitVec.ofNat 4 i ↔ q.toNat = i := by
      rw [← BitVec.toNat_inj, BitVec.toNat_ofNat, Nat.mod_eq_of_lt hi]
    rw [if_congr hq rfl rfl]
    rcases Nat.lt_trichotomy q.toNat i with hlt | heq | hgt
    · simp [show ¬ i + 1 ≤ q.toNat by omega, show ¬ i ≤ q.toNat by omega, show q.toNat ≠ i by omega]
    · simp [heq]
    · obtain ⟨k, hk⟩ : ∃ k, q.toNat = i + 1 + k := ⟨q.toNat - (i + 1), by omega⟩
      simp [hk, show i + 1 + k - i = k + 1 by omega, show i ≤ i + 1 + k by omega,
        show i + 1 + k ≠ i by omega]

/-- Reading a run of registers: its `k`-th word is register `i + k`. -/
theorem State.regsFrom_getElem? (s : State) (i n k : Nat) :
    (s.regsFrom i n)[k]? = if k < n then some (s.reg (BitVec.ofNat 4 (i + k))) else none := by
  induction n generalizing i k with
  | zero => simp [State.regsFrom]
  | succ n ih =>
    cases k with
    | zero => simp [State.regsFrom]
    | succ k => simp [State.regsFrom, ih, Nat.add_assoc, Nat.add_comm 1 k]

end Sys2Proof.Machine
end

