-- ==== Sys2Proof/Laws/Ops.lean ====
section
/-! SUPPORT. What each shared operation can do, said once: later proofs cite these and unfold none of them. -/

namespace Sys2Proof.Machine

/-! ### How an instruction ends -/

/-- A completed instruction answers its state with result Ok. -/
theorem complete_next {s t : State} : complete s = .next t ↔ t = s.setResult .ok := by
  simp [complete, eq_comm]

/-- A raised fault answers the state itself with the fault as its result. -/
theorem raise_next {f : Fault} {s t : State} : raise f s = .next t ↔ t = s.setResult (.fault f) := by
  simp [raise, eq_comm]

/-- A step's end answers a next state exactly where `Execute` does, with PC incremented. -/
theorem finish_next {x : Result} {u : State} : finish x = .next u ↔ ∃ t, x = .next t ∧ u = advance t := by
  cases x <;> simp [finish, eq_comm]

@[simp] theorem advance_main (s : State) : (advance s).main = s.main := rfl
@[simp] theorem advance_stack (s : State) : (advance s).stack = s.stack := rfl
@[simp] theorem advance_result (s : State) : (advance s).result = s.result := rfl
@[simp] theorem advance_reg (s : State) (q : Reg) :
    (advance s).reg q = if q = pcReg then s.reg pcReg + 1 else s.reg q := State.setReg_reg ..

/-! ### Flags -/

/-- One bit of FLAGS after `OVF <- b`. -/
theorem setOvf_bit (w : Word) (b : Bool) (j : Nat) :
    ((w &&& 0xFFFE) ||| boolWord b).getLsbD j = if j = 0 then b else w.getLsbD j := by
  by_cases hj : j < 16
  · interval_cases j <;> cases b <;> simp [boolWord]
  · have : j ≠ 0 := by omega
    simp [BitVec.getLsbD_of_ge _ _ (show 16 ≤ j by omega), this]

/-- One bit of FLAGS after `CMP <- b`. -/
theorem setCmp_bit (w : Word) (b : Bool) (j : Nat) :
    ((w &&& 0xFFFD) ||| (boolWord b <<< 1)).getLsbD j = if j = 1 then b else w.getLsbD j := by
  by_cases hj : j < 16
  · interval_cases j <;> cases b <;> simp [boolWord]
  · have : j ≠ 1 := by omega
    simp [BitVec.getLsbD_of_ge _ _ (show 16 ≤ j by omega), this]

/-- A register after `OVF <- b`. -/
theorem State.setOvf_reg (s : State) (b : Bool) (q : Reg) :
    (s.setOvf b).reg q = if q = flagsReg then (s.reg flagsReg &&& 0xFFFE) ||| boolWord b else s.reg q :=
  State.setReg_reg ..

/-- A register after `CMP <- b`. -/
theorem State.setCmp_reg (s : State) (b : Bool) (q : Reg) :
    (s.setCmp b).reg q =
      if q = flagsReg then (s.reg flagsReg &&& 0xFFFD) ||| (boolWord b <<< 1) else s.reg q :=
  State.setReg_reg ..

/-- A bit of FLAGS after `OVF <- b`. -/
theorem State.setOvf_flagsBit (s : State) (b : Bool) (j : Nat) :
    ((s.setOvf b).reg flagsReg).getLsbD j = if j = 0 then b else (s.reg flagsReg).getLsbD j := by
  rw [State.setOvf_reg, if_pos rfl, setOvf_bit]

/-- A bit of FLAGS after `CMP <- b`. -/
theorem State.setCmp_flagsBit (s : State) (b : Bool) (j : Nat) :
    ((s.setCmp b).reg flagsReg).getLsbD j = if j = 1 then b else (s.reg flagsReg).getLsbD j := by
  rw [State.setCmp_reg, if_pos rfl, setCmp_bit]

/-! ### Operand forms -/

/-- A load either fits main memory and completes with the word there, or raises the memory's error. -/
theorem loadInto_cases (rd : Reg) (a : Word) (s : State) :
    (a.toNat < s.main.length ∧ loadInto rd a s = complete (s.setReg rd (s.main.cell a.toNat))) ∨
      (s.main.length ≤ a.toNat ∧
        loadInto rd a s = raise (.pointerOutOfRange s.main.length a.toNat) s) := by
  unfold loadInto
  rcases Memory.get_eq s.main a.toNat with ⟨h, he⟩ | ⟨h, he⟩ <;> rw [he]
  · exact .inl ⟨h, rfl⟩
  · exact .inr ⟨h, rfl⟩

/-- A store either fits main memory and completes with the word in its cell, or raises the memory's error. -/
theorem storeAt_cases (a v : Word) (s : State) :
    (a.toNat < s.main.length ∧ ∃ m, s.main.set a.toNat v = .ok m ∧ storeAt a v s = complete (s.setMain m)) ∨
      (s.main.length ≤ a.toNat ∧
        storeAt a v s = raise (.pointerOutOfRange s.main.length a.toNat) s) := by
  unfold storeAt
  rcases Memory.set_eq s.main a.toNat v with ⟨h, he⟩ | ⟨h, he⟩ <;> rw [he]
  · exact .inl ⟨h, _, rfl, rfl⟩
  · exact .inr ⟨h, rfl⟩

/-- Which condition codes name a condition. -/
theorem State.condHolds_none (s : State) (c : Nat) : s.condHolds c = none ↔ 3 < c := by
  unfold State.condHolds
  split <;> simp_all
  omega

/-- A jump is taken, is not taken, or faults on its code. -/
theorem jumpTo_cases (c : Nat) (target : Word) (s : State) :
    (s.condHolds c = some true ∧ jumpTo c target s = complete (s.setPc target)) ∨
      (s.condHolds c = some false ∧ jumpTo c target s = complete s) ∨
      (3 < c ∧ jumpTo c target s = raise (.invalidJumpCondition c) s) := by
  unfold jumpTo
  split
  · exact .inl ⟨‹_›, rfl⟩
  · exact .inr (.inl ⟨‹_›, rfl⟩)
  · exact .inr (.inr ⟨(s.condHolds_none c).1 ‹_›, rfl⟩)

/-- What PUSH can do. -/
theorem execPush_cases (rd : Reg) (s : State) :
    (s.sp.toNat < s.stack.length ∧ ∃ m, s.stack.set s.sp.toNat (s.reg rd) = .ok m ∧
        execPush rd s = complete ((s.setStack m).setSp (s.sp + 1))) ∨
      (s.stack.length ≤ s.sp.toNat ∧ execPush rd s = raise .stackOverflow s) := by
  unfold execPush
  rcases Memory.set_eq s.stack s.sp.toNat (s.reg rd) with ⟨h, he⟩ | ⟨h, he⟩ <;> rw [he]
  · exact .inl ⟨h, _, rfl, rfl⟩
  · exact .inr ⟨h, rfl⟩

/-- What POP can do. -/
theorem execPop_cases (rd : Reg) (s : State) :
    (s.sp = 0 ∧ execPop rd s = raise .stackUnderflow s) ∨
      (s.sp ≠ 0 ∧ s.sp.toNat ≤ s.stack.length ∧ execPop rd s =
        complete ((s.setSp (s.sp - 1)).setReg rd (s.stack.cell (s.sp.toNat - 1)))) ∨
      (s.sp ≠ 0 ∧ s.stack.length < s.sp.toNat ∧ execPop rd s = raise .unreachable s) := by
  unfold execPop
  by_cases h0 : s.sp = 0
  · exact .inl ⟨h0, if_pos h0⟩
  · have hpos : s.sp.toNat ≠ 0 := fun h => h0 (BitVec.eq_of_toNat_eq (by simpa using h))
    rw [if_neg h0]
    rcases Memory.get_eq s.stack (s.sp.toNat - 1) with ⟨h, he⟩ | ⟨h, he⟩ <;> rw [he]
    · exact .inr (.inl ⟨h0, by omega, rfl⟩)
    · exact .inr (.inr ⟨h0, by omega, rfl⟩)

/-- What PUSHA can do. -/
theorem execPusha_cases (s : State) :
    (s.sp.toNat + 13 ≤ s.stack.length ∧ ∃ m, s.stack.setRange s.sp.toNat s.block = .ok m ∧
        execPusha s = complete ((s.setStack m).setSp (s.sp + 13))) ∨
      (s.stack.length < s.sp.toNat + 13 ∧ execPusha s = raise .stackOverflow s) := by
  unfold execPusha
  rcases Memory.setRange_eq s.stack s.sp.toNat s.block with ⟨h, he⟩ | ⟨h, he⟩ <;> rw [he] <;>
    rw [State.block_length] at h
  · exact .inl ⟨h, _, rfl, rfl⟩
  · exact .inr ⟨h, rfl⟩

/-- What POPA can do. -/
theorem execPopa_cases (s : State) :
    (s.sp.toNat < 13 ∧ execPopa s = raise .stackUnderflow s) ∨
      (13 ≤ s.sp.toNat ∧ s.sp.toNat ≤ s.stack.length ∧ execPopa s =
        complete ((s.setSp (s.sp - 13)).setBlock (lookupCells s.stack.cells (s.sp.toNat - 13) 13))) ∨
      (13 ≤ s.sp.toNat ∧ s.stack.length < s.sp.toNat ∧ execPopa s = raise .unreachable s) := by
  unfold execPopa Config.blockSize
  by_cases h0 : s.sp.toNat < 13
  · exact .inl ⟨h0, if_pos h0⟩
  · rw [if_neg h0]
    rcases Memory.getRange_eq s.stack (s.sp.toNat - 13) 13 with ⟨h, he⟩ | ⟨h, he⟩ <;> rw [he]
    · exact .inr (.inl ⟨by omega, by omega, rfl⟩)
    · exact .inr (.inr ⟨by omega, by omega, rfl⟩)

/-- What DIV can do. -/
theorem execDiv_cases (rd rs : Reg) (s : State) :
    (s.reg rs = 0 ∧ execDiv rd rs s = raise .divisionByZero s) ∨
      (s.reg rs ≠ 0 ∧
        execDiv rd rs s = writeResultOvf rd (divWord (s.reg rd) (s.reg rs)) false s) := by
  unfold execDiv
  by_cases h : s.reg rs = 0
  · exact .inl ⟨h, if_pos h⟩
  · exact .inr ⟨h, if_neg h⟩

/-! ### The step -/

/-- A step either runs the word at PC and ends it, or takes the fetch failure. -/
theorem step_cases (s : State) :
    (s.pc.toNat < s.main.length ∧ step s = finish (exec (decode (s.main.cell s.pc.toNat)) s)) ∨
      (s.main.length ≤ s.pc.toNat ∧
        step s = finish (failFetch (.pointerOutOfRange s.main.length s.pc.toNat) s)) := by
  unfold step fetch
  rcases Memory.get_eq s.main s.pc.toNat with ⟨h, he⟩ | ⟨h, he⟩ <;> rw [he]
  · exact .inl ⟨h, rfl⟩
  · exact .inr ⟨h, rfl⟩

/-- A failed fetch ends with PC at 0, the error as the step's result, and nothing else changed. -/
theorem finish_failFetch (f : Fault) (s : State) :
    finish (failFetch f s) = .next (advance ((s.setPc 0xFFFF).setResult (.fault f))) := rfl

end Sys2Proof.Machine
end

