-- ==== Sys2Proof/Laws/Exec.lean ====
section
/-! SUPPORT. How every instruction ends, said once for all of them. -/

namespace Sys2Proof.Machine

/-- A load completes or raises. -/
theorem loadInto_ends (rd : Reg) (a : Word) (s : State) :
    (∃ t, loadInto rd a s = complete t) ∨ ∃ f, loadInto rd a s = raise f s := by
  rcases loadInto_cases rd a s with ⟨_, h⟩ | ⟨_, h⟩
  · exact .inl ⟨_, h⟩
  · exact .inr ⟨_, h⟩

/-- A store completes or raises. -/
theorem storeAt_ends (a v : Word) (s : State) :
    (∃ t, storeAt a v s = complete t) ∨ ∃ f, storeAt a v s = raise f s := by
  rcases storeAt_cases a v s with ⟨_, _, _, h⟩ | ⟨_, h⟩
  · exact .inl ⟨_, h⟩
  · exact .inr ⟨_, h⟩

/-- A jump completes or raises. -/
theorem jumpTo_ends (c : Nat) (target : Word) (s : State) :
    (∃ t, jumpTo c target s = complete t) ∨ ∃ f, jumpTo c target s = raise f s := by
  rcases jumpTo_cases c target s with ⟨_, h⟩ | ⟨_, h⟩ | ⟨_, h⟩
  · exact .inl ⟨_, h⟩
  · exact .inl ⟨_, h⟩
  · exact .inr ⟨_, h⟩

/-- Every instruction either completes in some state with result Ok, or raises a fault in the state it was
executed in (40_step_cycle.md R113, R114). -/
theorem exec_ends (i : Instr) (s : State) : (∃ t, exec i s = complete t) ∨ ∃ f, exec i s = raise f s := by
  cases i with
  | nop => exact .inl ⟨_, rfl⟩
  | push rd =>
    rcases execPush_cases rd s with ⟨_, _, _, h⟩ | ⟨_, h⟩
    · exact .inl ⟨_, h⟩
    · exact .inr ⟨_, h⟩
  | pop rd =>
    rcases execPop_cases rd s with ⟨_, h⟩ | ⟨_, _, h⟩ | ⟨_, _, h⟩
    · exact .inr ⟨_, h⟩
    · exact .inl ⟨_, h⟩
    · exact .inr ⟨_, h⟩
  | pusha =>
    rcases execPusha_cases s with ⟨_, _, _, h⟩ | ⟨_, h⟩
    · exact .inl ⟨_, h⟩
    · exact .inr ⟨_, h⟩
  | popa =>
    rcases execPopa_cases s with ⟨_, h⟩ | ⟨_, _, h⟩ | ⟨_, _, h⟩
    · exact .inr ⟨_, h⟩
    · exact .inl ⟨_, h⟩
    · exact .inr ⟨_, h⟩
  | move rd rs => exact .inl ⟨_, rfl⟩
  | load rd rs => exact loadInto_ends rd (s.reg rs) s
  | save rd rs => exact storeAt_ends (s.reg rd) (s.reg rs) s
  | add rd rs => exact .inl ⟨_, rfl⟩
  | sub rd rs => exact .inl ⟨_, rfl⟩
  | mul rd rs => exact .inl ⟨_, rfl⟩
  | div rd rs =>
    rcases execDiv_cases rd rs s with ⟨_, h⟩ | ⟨_, h⟩
    · exact .inr ⟨_, h⟩
    · exact .inl ⟨_, h⟩
  | cmpeq rd rs => exact .inl ⟨_, rfl⟩
  | cmpne rd rs => exact .inl ⟨_, rfl⟩
  | cmpgt rd rs => exact .inl ⟨_, rfl⟩
  | cmplt rd rs => exact .inl ⟨_, rfl⟩
  | lxor rd rs => exact .inl ⟨_, rfl⟩
  | lnot rd => exact .inl ⟨_, rfl⟩
  | jump rd c => exact jumpTo_ends c.toNat (s.reg rd - 1) s
  | int imm => exact .inl ⟨_, rfl⟩
  | invalid w => exact .inl ⟨_, rfl⟩
  | shl rd rs => exact .inl ⟨_, rfl⟩
  | shr rd rs => exact .inl ⟨_, rfl⟩
  | not rd => exact .inl ⟨_, rfl⟩
  | xor rd rs => exact .inl ⟨_, rfl⟩
  | and rd rs => exact .inl ⟨_, rfl⟩
  | or rd rs => exact .inl ⟨_, rfl⟩
  | nor rd rs => exact .inl ⟨_, rfl⟩
  | loadr off => exact loadInto_ends 0 (s.relAddr off) s
  | jumpr off c => exact jumpTo_ends c.toNat (s.relAddr off) s
  | saver off => exact storeAt_ends (s.relAddr off) (s.reg 0) s

/-- Nothing changes between a state and itself with another returned value. -/
theorem nothingChanged_setResult (s : State) (x : StepResult) : NothingChanged s (s.setResult x) :=
  ⟨fun _ _ => rfl, fun _ => rfl, fun _ => rfl⟩

/-- An instruction that raises a fault changes nothing else. -/
theorem raises_of_raise {i : Instr} {s : State} {f : Fault} (h : exec i s = raise f s) : Raises i s f :=
  ⟨_, h, rfl, nothingChanged_setResult s _⟩

end Sys2Proof.Machine
end

