-- ==== Sys2Proof/Laws/PerInstr.lean ====
section
/-! SUPPORT. Facts about every instruction as syntax, one lemma per constructor. -/

namespace Sys2Proof.Laws

/-- The opcode of an instruction in the opcode map (30_encoding.md R85; decision D1, log 7); an INVALID encodes
as the no-op word, opcode 0 (R90). -/
def tableOpcode : Instr → BitVec 5
  | .nop => 0
  | .push _ => 1
  | .pop _ => 2
  | .pusha => 3
  | .popa => 4
  | .move _ _ => 5
  | .load _ _ => 6
  | .save _ _ => 7
  | .add _ _ => 8
  | .sub _ _ => 9
  | .mul _ _ => 10
  | .div _ _ => 11
  | .cmpeq _ _ => 12
  | .cmpne _ _ => 13
  | .cmpgt _ _ => 14
  | .cmplt _ _ => 15
  | .lxor _ _ => 16
  | .lnot _ => 17
  | .jump _ _ => 18
  | .int _ => 19
  | .invalid _ => 0
  | .shl _ _ => 21
  | .shr _ _ => 22
  | .not _ => 23
  | .xor _ _ => 24
  | .and _ _ => 25
  | .or _ _ => 26
  | .nor _ _ => 27
  | .loadr _ => 28
  | .jumpr _ _ => 29
  | .saver _ => 30

/-- The canonical word of an instruction holds that instruction's opcode in bits 4:0. -/
def OpcodeField.Statement (i : Instr) : Prop := opcodeOf (encode i) = tableOpcode i

theorem OpcodeField.nop : OpcodeField.Statement (.nop) := opcodeOf_encodeZ 0
theorem OpcodeField.push (rd : Reg) : OpcodeField.Statement (.push rd) := opcodeOf_encodeR 1 rd
theorem OpcodeField.pop (rd : Reg) : OpcodeField.Statement (.pop rd) := opcodeOf_encodeR 2 rd
theorem OpcodeField.pusha : OpcodeField.Statement (.pusha) := opcodeOf_encodeZ 3
theorem OpcodeField.popa : OpcodeField.Statement (.popa) := opcodeOf_encodeZ 4
theorem OpcodeField.move (rd : Reg) (rs : Reg) : OpcodeField.Statement (.move rd rs) := opcodeOf_encodeRR 5 rd rs
theorem OpcodeField.load (rd : Reg) (rs : Reg) : OpcodeField.Statement (.load rd rs) := opcodeOf_encodeRR 6 rd rs
theorem OpcodeField.save (rd : Reg) (rs : Reg) : OpcodeField.Statement (.save rd rs) := opcodeOf_encodeRR 7 rd rs
theorem OpcodeField.add (rd : Reg) (rs : Reg) : OpcodeField.Statement (.add rd rs) := opcodeOf_encodeRR 8 rd rs
theorem OpcodeField.sub (rd : Reg) (rs : Reg) : OpcodeField.Statement (.sub rd rs) := opcodeOf_encodeRR 9 rd rs
theorem OpcodeField.mul (rd : Reg) (rs : Reg) : OpcodeField.Statement (.mul rd rs) := opcodeOf_encodeRR 10 rd rs
theorem OpcodeField.div (rd : Reg) (rs : Reg) : OpcodeField.Statement (.div rd rs) := opcodeOf_encodeRR 11 rd rs
theorem OpcodeField.cmpeq (rd : Reg) (rs : Reg) : OpcodeField.Statement (.cmpeq rd rs) := opcodeOf_encodeRR 12 rd rs
theorem OpcodeField.cmpne (rd : Reg) (rs : Reg) : OpcodeField.Statement (.cmpne rd rs) := opcodeOf_encodeRR 13 rd rs
theorem OpcodeField.cmpgt (rd : Reg) (rs : Reg) : OpcodeField.Statement (.cmpgt rd rs) := opcodeOf_encodeRR 14 rd rs
theorem OpcodeField.cmplt (rd : Reg) (rs : Reg) : OpcodeField.Statement (.cmplt rd rs) := opcodeOf_encodeRR 15 rd rs
theorem OpcodeField.lxor (rd : Reg) (rs : Reg) : OpcodeField.Statement (.lxor rd rs) := opcodeOf_encodeRR 16 rd rs
theorem OpcodeField.lnot (rd : Reg) : OpcodeField.Statement (.lnot rd) := opcodeOf_encodeR 17 rd
theorem OpcodeField.jump (rd : Reg) (c : BitVec 4) : OpcodeField.Statement (.jump rd c) := opcodeOf_encodeRR 18 rd c
theorem OpcodeField.int (g : BitVec 8) : OpcodeField.Statement (.int g) := opcodeOf_encodeI 19 g
theorem OpcodeField.invalid (w : Word) : OpcodeField.Statement (.invalid w) := by
  show opcodeOf 0 = 0
  decide
theorem OpcodeField.shl (rd : Reg) (rs : Reg) : OpcodeField.Statement (.shl rd rs) := opcodeOf_encodeRR 21 rd rs
theorem OpcodeField.shr (rd : Reg) (rs : Reg) : OpcodeField.Statement (.shr rd rs) := opcodeOf_encodeRR 22 rd rs
theorem OpcodeField.not (rd : Reg) : OpcodeField.Statement (.not rd) := opcodeOf_encodeR 23 rd
theorem OpcodeField.xor (rd : Reg) (rs : Reg) : OpcodeField.Statement (.xor rd rs) := opcodeOf_encodeRR 24 rd rs
theorem OpcodeField.and (rd : Reg) (rs : Reg) : OpcodeField.Statement (.and rd rs) := opcodeOf_encodeRR 25 rd rs
theorem OpcodeField.or (rd : Reg) (rs : Reg) : OpcodeField.Statement (.or rd rs) := opcodeOf_encodeRR 26 rd rs
theorem OpcodeField.nor (rd : Reg) (rs : Reg) : OpcodeField.Statement (.nor rd rs) := opcodeOf_encodeRR 27 rd rs
theorem OpcodeField.loadr (g : BitVec 8) : OpcodeField.Statement (.loadr g) := opcodeOf_encodeI 28 g
theorem OpcodeField.jumpr (g : BitVec 8) (c3 : BitVec 3) : OpcodeField.Statement (.jumpr g c3) := opcodeOf_encodeSC 29 g c3
theorem OpcodeField.saver (g : BitVec 8) : OpcodeField.Statement (.saver g) := opcodeOf_encodeI 30 g

end Sys2Proof.Laws
end

