-- ==== Sys2Proof/Laws/Runs.lean ====
section
/-! SUPPORT. What the host's sequences of transactions and its runs do, said once. -/

namespace Sys2Proof.Machine

/-! ### Transactions in sequence -/

/-- The transaction STEP hands on the next state of `step` and what that state's step returned. -/
theorem perform_step {s t : State} (h : step s = .next t) : perform .step s = some (t, stepAnswer t.result) := by
  simp [perform, h]

@[simp] theorem performAll_nil (s : State) : performAll [] s = some (s, []) := rfl

/-- What performing a first transaction and then the others can do. -/
theorem performAll_cons {x : Transaction} {xs : List Transaction} {s u : State} {as : List Answer} :
    performAll (x :: xs) s = some (u, as) ↔
      ∃ t a bs, perform x s = some (t, a) ∧ performAll xs t = some (u, bs) ∧ as = a :: bs := by
  rw [performAll]
  rcases perform x s with _ | ⟨t, a⟩
  · simp
  · simp only [Option.map_eq_some_iff, Prod.mk.injEq, Prod.exists, Option.some.injEq]
    constructor
    · rintro ⟨v, bs, h, rfl, rfl⟩
      exact ⟨t, a, bs, ⟨rfl, rfl⟩, h, rfl⟩
    · rintro ⟨_, _, bs, ⟨rfl, rfl⟩, h, rfl⟩
      exact ⟨u, bs, h, rfl, rfl⟩

/-- Two sequences one after the other are one sequence, with the answers of both. -/
theorem performAll_append {xs ys : List Transaction} {s t u : State} {as bs : List Answer}
    (hx : performAll xs s = some (t, as)) (hy : performAll ys t = some (u, bs)) :
    performAll (xs ++ ys) s = some (u, as ++ bs) := by
  induction xs generalizing s as with
  | nil => cases hx; exact hy
  | cons x xs ih =>
    obtain ⟨v, a, cs, hp, hr, rfl⟩ := performAll_cons.1 hx
    exact performAll_cons.2 ⟨v, a, cs ++ bs, hp, ih hr, rfl⟩

/-- Every transaction of a sequence gives the host one answer. -/
theorem performAll_length {xs : List Transaction} {s t : State} {as : List Answer}
    (h : performAll xs s = some (t, as)) : as.length = xs.length := by
  induction xs generalizing s as with
  | nil => cases h; rfl
  | cons x xs ih =>
    obtain ⟨v, a, cs, _, hr, rfl⟩ := performAll_cons.1 h
    simp [ih hr]

/-! ### Runs -/

/-- What a run with no STEP left to follow leaves. -/
@[simp] theorem runFrom_zero (ends : EndOfRun) (answers : List Answer) (s : State) :
    runFrom ends 0 answers s = some ⟨s, answers, ends answers s.main⟩ := rfl

/-- Where the condition holds, no STEP is issued, whatever the limit. -/
theorem runFrom_ended {ends : EndOfRun} {answers : List Answer} {s : State} (h : ends answers s.main = true)
    (limit : Nat) : runFrom ends limit answers s = some ⟨s, answers, true⟩ := by
  cases limit <;> simp [runFrom, h]

/-- Where the condition does not hold, one STEP is issued and the run goes on with its answer. -/
theorem runFrom_step {ends : EndOfRun} {answers : List Answer} {s t : State}
    (h : ends answers s.main = false) (ht : step s = .next t) (limit : Nat) :
    runFrom ends (limit + 1) answers s = runFrom ends limit (answers ++ [stepAnswer t.result]) t := by
  simp [runFrom, h, perform_step ht]

/-! ### The end-of-run conditions -/

@[simp] theorem endAfter_eq (n : Nat) (answers : List Answer) (m : Memory) :
    endAfter n answers m = decide (n ≤ answers.length) := rfl

@[simp] theorem endAtFirstFault_nil (m : Memory) : endAtFirstFault [] m = false := rfl

/-- One more answer ends a run at its first fault exactly if it is a fault or the run had ended. -/
theorem endAtFirstFault_append (answers : List Answer) (a : Answer) (m : Memory) :
    endAtFirstFault (answers ++ [a]) m = (endAtFirstFault answers m || isFault a) := by
  simp [endAtFirstFault]

@[simp] theorem endAtEither_eq (p q : EndOfRun) (answers : List Answer) (m : Memory) :
    endAtEither p q answers m = (p answers m || q answers m) := rfl

/-- What STEP returns is Ok or a fault. -/
theorem isFault_stepAnswer (x : StepResult) : isFault (stepAnswer x) = false ↔ x = .ok := by
  cases x <;> simp [stepAnswer, isFault]

end Sys2Proof.Machine
end

