-- ==== Sys2Proof/Tests/Slice0.lean ====
section
/-! SUPPORT. Tests of one step each, with the expected results taken from the tables of 95_test_vectors.md and
96_step_vectors.md, and for every statement with hypotheses a witness that something meets them. -/

namespace Sys2Proof.Tests

open Sys2Proof.Machine

/-! ### Well-formedness and the codec -/

/-- The one check of `wellFormed` refuses an INVALID that carries a word with another opcode. -/
theorem test_wellFormed_refuses_invalid_of_nop : (Instr.invalid 0x0000).wellFormed = false := by decide

theorem test_wellFormed_refuses_invalid_of_add : (Instr.invalid 0x0428).wellFormed = false := by decide

theorem test_wellFormed_accepts_both_reserved_opcodes :
    (Instr.invalid 0xABD4).wellFormed = true ∧ (Instr.invalid 0x001F).wellFormed = true := by decide

/-! Words written out from 30_encoding.md R81 to R87; the rows of 95_test_vectors.md section 2.1. -/

theorem test_decode_arithmetic :
    decode 0b0000010000101000 = .add 1 2 ∧ decode 0b0001111111101000 = .add 15 15 ∧
      decode 0b0000010000101001 = .sub 1 2 ∧ decode 0b0000010000101010 = .mul 1 2 ∧
      decode 0b0000010000101011 = .div 1 2 := by decide

theorem test_decode_shifts :
    decode 0b0000010000110101 = .shl 1 2 ∧ decode 0b0000010000110110 = .shr 1 2 := by decide

theorem test_decode_bitwise :
    decode 0b0000000000110111 = .not 1 ∧ decode 0b0000010000111000 = .xor 1 2 ∧
      decode 0b0000010000111001 = .and 1 2 ∧ decode 0b0000010000111010 = .or 1 2 ∧
      decode 0b0000010000111011 = .nor 1 2 := by decide

theorem test_decode_compare :
    decode 0b0000010000101100 = .cmpeq 1 2 ∧ decode 0b0000010000101101 = .cmpne 1 2 ∧
      decode 0b0000010000101110 = .cmpgt 1 2 ∧ decode 0b0000010000101111 = .cmplt 1 2 ∧
      decode 0b0000010000110000 = .lxor 1 2 ∧ decode 0b0000000000110001 = .lnot 1 := by decide

theorem test_decode_data_movement :
    decode 0b0000010001000101 = .move 2 2 ∧ decode 0b0001110000100110 = .load 1 14 ∧
      decode 0b0000010000100111 = .save 1 2 := by decide

theorem test_decode_relative :
    decode 0b1111111000011100 = .loadr 0xFE ∧ decode 0b1000000000011100 = .loadr 0x80 ∧
      decode 0b0000000100011110 = .saver 1 ∧ decode 0b1111111100011110 = .saver 0xFF := by decide

theorem test_decode_stack :
    decode 0b0000000000100001 = .push 1 ∧ decode 0b0000000111100010 = .pop 15 ∧
      decode 0b0000000000000011 = .pusha ∧ decode 0b0000000000000100 = .popa := by decide

theorem test_decode_jumps :
    decode 0b0000000001010010 = .jump 2 0 ∧ decode 0b0001111001010010 = .jump 2 15 ∧
      decode 0b0000001000011101 = .jumpr 2 0 ∧ decode 0b1111110001011101 = .jumpr 0xFC 2 ∧
      decode 0b1000000011111101 = .jumpr 0x80 7 := by decide

theorem test_decode_system :
    decode 0b0000000000000000 = .nop ∧ decode 0b0010101000010011 = .int 42 ∧
      decode 0b0000000000010100 = .invalid 0x0014 ∧ decode 0b1111111111111111 = .invalid 0xFFFF := by decide

theorem test_decode_ignores_bits_outside_the_format :
    decode 0xFFE0 = .nop ∧ decode 0xFE21 = .push 1 ∧ decode 0xE428 = .add 1 2 ∧ decode 0xFEFC = .loadr 0xFE ∧
      decode 0xFFF2 = .jump 15 15 := by decide

/-- The rows of 95_test_vectors.md section 2.2. -/
theorem test_encode :
    encode .nop = 0x0000 ∧ encode (.push 14) = 0x01C1 ∧ encode (.move 14 6) = 0x0DC5 ∧
      encode (.jump 2 3) = 0x0652 ∧ encode (.int 255) = 0xFF13 ∧ encode (.loadr 0xFD) = 0xFD1C ∧
      encode (.jumpr 0xFC 2) = 0xFC5D ∧ encode (.saver 6) = 0x061E ∧ encode (.invalid 0xABD4) = 0 := by decide

theorem test_decodeTableWord :
    decodeTableWord 16 0x1E52 = some (.jump 2 15) ∧ decodeTableWord 8 0x01 = some (.push 0) := by decide

/-! ### One step -/

/-- A block of `n` words that holds the listed ones and zeros. -/
def block (n : Nat) (words : List (Nat × Word)) : Memory :=
  ⟨n, words.foldl (fun cells p => insertCell cells p.1 p.2) []⟩

/-- A core with the given memories and registers, the others 0, PC 0x0010 unless listed. -/
def coreOf (regs : List (Reg × Word)) (main stack : Memory) : State :=
  regs.foldl (fun s p => s.setReg p.1 p.2) ((State.resetWith main 0x0010 stack.length).setStack stack)

/-- The state of a row of 96_step_vectors.md: 32 words of main memory, the instruction word at PC. -/
def row (word : Nat) (regs : List (Reg × Word)) (main : List (Nat × Word) := [])
    (stack : Memory := block 4 []) : State :=
  (coreOf regs (block 32 main) stack).withFetchWord 16 word

/-- What a state shows after one step. -/
def after {α : Type} (s : State) (view : State → α) : Option α :=
  match step s with
  | .next t => some (view t)
  | .fault _ => none
  | .refused _ => none

/-- The values 1 to 13 in cells `a` to `a + 12`. -/
def counted (a : Nat) : List (Nat × Word) := (List.range 13).map fun i => (a + i, BitVec.ofNat 16 (i + 1))

/-- Registers 0 to 12 holding 1 to 13. -/
def countedRegs : List (Reg × Word) :=
  (List.range 13).map fun i => (BitVec.ofNat 4 i, BitVec.ofNat 16 (i + 1))

theorem test_add_of_largest_values_overflows :
    after (row 0x0428 [(1, 0xFFFF), (2, 0xFFFF)]) (fun t => (t.reg 1, t.reg 13)) =
      some (0xFFFE, 0x0001) := by decide

theorem test_add_into_flags_ends_with_ovf :
    after (row 0x03A8 [(1, 0xFFFF), (13, 0x0003)]) (fun t => t.reg 13) = some 0x0003 := by decide

theorem test_sub_borrows :
    after (row 0x0429 [(1, 0x0003), (2, 0x0005)]) (fun t => (t.reg 1, t.reg 13)) =
      some (0xFFFE, 0x0001) := by decide

theorem test_sub_of_itself_clears_ovf :
    after (row 0x0229 [(1, 0x1234), (13, 0x0003)]) (fun t => (t.reg 1, t.reg 13)) =
      some (0x0000, 0x0002) := by decide

theorem test_mul_overflows :
    after (row 0x042A [(1, 0x012C), (2, 0x012C)]) (fun t => (t.reg 1, t.reg 13)) =
      some (0x5F90, 0x0001) := by decide

theorem test_mul_fits :
    after (row 0x042A [(1, 0x00FF), (2, 0x0101)]) (fun t => (t.reg 1, t.reg 13)) =
      some (0xFFFF, 0x0000) := by decide

theorem test_div_is_unsigned_and_clears_ovf :
    after (row 0x042B [(1, 0xFFFE), (2, 0x0002), (13, 0x0003)]) (fun t => (t.reg 1, t.reg 13)) =
      some (0x7FFF, 0x0002) := by decide

theorem test_div_by_zero_writes_nothing :
    after (row 0x042B [(1, 0x0007), (13, 0x0001)]) (fun t => (t.reg 1, t.reg 13, t.reg 14, t.result)) =
      some (0x0007, 0x0001, 0x0011, .fault .divisionByZero) := by decide

theorem test_shl_by_17_shifts_by_1_and_sets_ovf :
    after (row 0x0435 [(1, 0x80FF), (2, 0x0011)]) (fun t => (t.reg 1, t.reg 13)) =
      some (0x01FE, 0x0001) := by decide

theorem test_shl_by_1_clears_ovf :
    after (row 0x0435 [(1, 0x80FF), (2, 0x0001), (13, 0x0003)]) (fun t => (t.reg 1, t.reg 13)) =
      some (0x01FE, 0x0002) := by decide

theorem test_shr_fills_with_zeros :
    after (row 0x0436 [(1, 0x80FF), (2, 0x000F)]) (fun t => (t.reg 1, t.reg 13)) =
      some (0x0001, 0x0000) := by decide

theorem test_shr_of_itself_by_19 :
    after (row 0x0236 [(1, 0x0013)]) (fun t => (t.reg 1, t.reg 13)) = some (0x0002, 0x0001) := by decide

theorem test_not_of_flags : after (row 0x01B7 [(13, 0x0003)]) (fun t => t.reg 13) = some 0xFFFC := by decide

theorem test_not_keeps_flags :
    after (row 0x0037 [(1, 0x00FF), (13, 0x0003)]) (fun t => (t.reg 1, t.reg 13)) =
      some (0xFF00, 0x0003) := by decide

theorem test_xor :
    after (row 0x0438 [(1, 0x0F0F), (2, 0x00FF), (13, 0x0003)]) (fun t => (t.reg 1, t.reg 13)) =
      some (0x0FF0, 0x0003) := by decide

theorem test_and :
    after (row 0x0439 [(1, 0x0F0F), (2, 0x00FF), (13, 0x0003)]) (fun t => (t.reg 1, t.reg 13)) =
      some (0x000F, 0x0003) := by decide

theorem test_or :
    after (row 0x043A [(1, 0x0F0F), (2, 0x00FF), (13, 0x0003)]) (fun t => (t.reg 1, t.reg 13)) =
      some (0x0FFF, 0x0003) := by decide

theorem test_nor :
    after (row 0x043B [(1, 0x0F0F), (2, 0x00FF), (13, 0x0003)]) (fun t => (t.reg 1, t.reg 13)) =
      some (0xF000, 0x0003) := by decide

theorem test_cmpeq_clears_only_cmp :
    after (row 0x042C [(1, 0x0001), (2, 0x0002), (13, 0xFFFF)]) (fun t => t.reg 13) = some 0xFFFD := by decide

theorem test_cmpeq_of_flags_reads_before_it_writes :
    after (row 0x03AC [(1, 0x0000)]) (fun t => t.reg 13) = some 0x0002 := by decide

theorem test_cmpne_of_equals :
    after (row 0x042D [(1, 0x0002), (2, 0x0002), (13, 0x0003)]) (fun t => t.reg 13) = some 0x0001 := by decide

theorem test_cmpgt_is_unsigned :
    after (row 0x042E [(1, 0x8000), (2, 0x7FFF)]) (fun t => t.reg 13) = some 0x0002 := by decide

theorem test_cmplt_is_unsigned :
    after (row 0x042F [(1, 0xFFFF), (2, 0x0001)]) (fun t => t.reg 13) = some 0x0000 := by decide

theorem test_cmplt_of_pc_reads_pc_at_fetch :
    after (row 0x03CF [(1, 0x0011)]) (fun t => t.reg 13) = some 0x0002 := by decide

theorem test_lxor_of_two_truths_is_false :
    after (row 0x0430 [(1, 0x0007), (2, 0x0009), (13, 0x0003)]) (fun t => t.reg 13) = some 0x0001 := by decide

theorem test_lxor_of_one_truth :
    after (row 0x0430 [(1, 0x0000), (2, 0x0007)]) (fun t => t.reg 13) = some 0x0002 := by decide

theorem test_lnot_of_zero : after (row 0x0031 []) (fun t => t.reg 13) = some 0x0002 := by decide

theorem test_lnot_of_a_high_bit :
    after (row 0x0031 [(1, 0x0100)]) (fun t => (t.reg 1, t.reg 13)) = some (0x0100, 0x0000) := by decide

theorem test_move_to_pc_lands_one_after :
    after (row 0x05C5 [(2, 0x0005)]) (fun t => t.reg 14) = some 0x0006 := by decide

theorem test_move_from_pc : after (row 0x1C25 []) (fun t => t.reg 1) = some 0x0010 := by decide

theorem test_load_of_its_own_word : after (row 0x1C26 []) (fun t => t.reg 1) = some 0x1C26 := by decide

theorem test_load_out_of_range :
    after (row 0x0426 [(1, 0x1111), (2, 0x0020)]) (fun t => (t.reg 1, t.reg 14, t.result)) =
      some (0x1111, 0x0011, .fault (.pointerOutOfRange 32 32)) := by decide

theorem test_save_in_the_last_cell :
    after (row 0x0427 [(1, 0x001F), (2, 0xBEEF)]) (fun t => (t.main.cell 31, t.result)) =
      some (0xBEEF, .ok) := by decide

theorem test_save_out_of_range :
    after (row 0x0427 [(1, 0x0020), (2, 0xBEEF)]) (fun t => (t.main.cells, t.result)) =
      some ([(16, 0x0427)], .fault (.pointerOutOfRange 32 32)) := by decide

theorem test_loadr_backwards :
    after (row 0xFE1C [] [(14, 0xCAFE)]) (fun t => t.reg 0) = some 0xCAFE := by decide

theorem test_loadr_wraps_below_zero :
    after (row 0xFE1C [(0, 0x1111), (14, 0x0001)]) (fun t => (t.reg 0, t.reg 14, t.result)) =
      some (0x1111, 0x0002, .fault (.pointerOutOfRange 32 65535)) := by decide

theorem test_saver_in_the_next_cell :
    after (row 0x011E [(0, 0xBEEF)]) (fun t => (t.main.cell 17, t.result)) = some (0xBEEF, .ok) := by decide

theorem test_saver_out_of_range :
    after (row 0x801E [(0, 0xBEEF)]) (fun t => t.result) =
      some (.fault (.pointerOutOfRange 32 65424)) := by decide

theorem test_push_of_sp_stores_the_old_value :
    after (row 0x01E1 [(15, 0x0002)]) (fun t => (t.reg 15, t.stack.cells)) =
      some (0x0003, [(2, 0x0002)]) := by decide

theorem test_push_on_a_full_stack :
    after (row 0x0021 [(1, 0xABCD), (15, 0x0004)]) (fun t => (t.reg 15, t.stack.cells, t.result)) =
      some (0x0004, [], .fault .stackOverflow) := by decide

theorem test_pop_into_sp_keeps_the_popped_word :
    after (row 0x01E2 [(15, 0x0002)] [] (block 4 [(1, 0x0009)])) (fun t => (t.reg 15, t.result)) =
      some (0x0009, .ok) := by decide

theorem test_pop_beyond_the_stack_memory :
    after (row 0x00A2 [(5, 0x1111), (15, 0x0005)]) (fun t => (t.reg 5, t.reg 15, t.result)) =
      some (0x1111, 0x0005, .fault .unreachable) := by decide

theorem test_pusha_fills_to_the_last_slot :
    after (row 0x0003 (countedRegs ++ [(15, 0x0003)]) [] (block 16 [])) (fun t => (t.reg 15, t.stack)) =
      some (0x0010, block 16 (counted 3)) := by decide

theorem test_pusha_overflows :
    after (row 0x0003 (countedRegs ++ [(15, 0x0004)]) [] (block 16 [])) (fun t => (t.stack.cells, t.result)) =
      some ([], .fault .stackOverflow) := by decide

theorem test_popa_reads_the_window_below_sp :
    after (row 0x0004 [(15, 0x0010)] [] (block 16 (counted 2))) (fun t => (t.reg 0, t.reg 12, t.reg 15)) =
      some (0x0002, 0x0000, 0x0003) := by decide

theorem test_popa_underflows :
    after (row 0x0004 [(1, 0x1111), (15, 0x000C)] [] (block 16 (counted 0)))
      (fun t => (t.reg 1, t.reg 15, t.result)) = some (0x1111, 0x000C, .fault .stackUnderflow) := by decide

theorem test_jump_lands_on_the_register :
    after (row 0x0052 [(2, 0x0000)]) (fun t => t.reg 14) = some 0x0000 := by decide

theorem test_jump_with_code_15_faults :
    after (row 0x1E52 [(2, 0x0040), (13, 0x0003)]) (fun t => (t.reg 14, t.result)) =
      some (0x0011, .fault (.invalidJumpCondition 15)) := by decide

theorem test_jumpr_lands_one_after_the_sum :
    after (row 0xFD3D [(13, 0x0002)]) (fun t => t.reg 14) = some 0x000E := by decide

theorem test_jumpr_not_taken : after (row 0x047D [(13, 0x0002)]) (fun t => t.reg 14) = some 0x0011 := by decide

theorem test_nop : after (row 0xFFE0 [(13, 0x0003)]) (fun t => (t.reg 13, t.reg 14)) = some (0x0003, 0x0011) := by
  decide

theorem test_int : after (row 0xFF13 [(13, 0x0003)]) (fun t => (t.reg 14, t.result)) = some (0x0011, .ok) := by
  decide

theorem test_invalid_opcode_20 :
    after (row 0xABD4 [(13, 0x0003)]) (fun t => (t.reg 14, t.result)) = some (0x0011, .ok) := by decide

theorem test_invalid_opcode_31 :
    after (row 0xFFFF [(13, 0x0003)]) (fun t => (t.reg 14, t.result)) = some (0x0011, .ok) := by decide

theorem test_failed_fetch_restarts_at_zero :
    after (coreOf [(1, 0x1111), (14, 0x0020)] (block 32 []) (block 4 []))
      (fun t => (t.reg 1, t.reg 14, t.result)) =
      some (0x1111, 0x0000, .fault (.pointerOutOfRange 32 32)) := by decide

theorem test_pc_wraps_at_the_last_address :
    after (coreOf [(14, 0xFFFF)] (block 65536 []) (block 0 [])) (fun t => (t.reg 14, t.result)) =
      some (0x0000, .ok) := by decide

/-- A NOP in the last cell, then the failed fetch (the Fetch rows), under both conditions of
70_reset_and_hazards.md R266. -/
def lastCell : State := coreOf [(14, 0x001F)] (block 32 []) (block 4 [])

theorem test_run_ends_at_the_first_fault :
    (run endAtFirstFault 5 lastCell).map (fun r => (r.state.reg 14, r.answers, r.ended)) =
      some (0x0000, [.ok, .fault (.pointerOutOfRange 32 32)], true) := by decide

theorem test_run_ends_after_a_count :
    (run (endAfter 1) 5 lastCell).map (fun r => (r.state.reg 14, r.answers, r.ended)) =
      some (0x0020, [.ok], true) := by decide

theorem test_run_ends_at_whichever_is_first :
    (run (endAtEither (endAfter 9) endAtFirstFault) 5 lastCell).map (fun r => (r.answers.length, r.ended)) =
        some (2, true) ∧
      (run (endAtEither (endAfter 1) endAtFirstFault) 5 lastCell).map (fun r => (r.answers.length, r.ended)) =
        some (1, true) := by decide

theorem test_run_cut_at_its_limit_has_not_ended :
    (run endAtFirstFault 1 lastCell).map (fun r => (r.answers, r.ended)) = some ([.ok], false) := by decide

/-! ### Reset and the memory block -/

theorem test_reset :
    State.reset.reg 14 = 0 ∧ State.reset.reg 15 = 0 ∧ State.reset.reg 13 = 0 ∧ State.reset.main.length = 65536 ∧
      State.reset.stack.length = 65535 ∧ State.reset.main.wf = true ∧ State.reset.stack.wf = true := by decide

theorem test_core_step_is_step :
    core.reset = State.reset ∧ after (State.reset.withFetchWord 16 0xFF1D) (fun t => t.reg 14) = some 0 :=
  ⟨rfl, by decide⟩

/-- The block of 95_test_vectors.md section 3. -/
def eight : Memory := Memory.ofWords [0x0100, 0x0101, 0x0102, 0x0103, 0x0104, 0x0105, 0x0106, 0x0107]

theorem test_memory_get :
    eight.get 7 = .ok 0x0107 ∧ eight.get 8 = .error (.pointerOutOfRange 8 8) := by decide

theorem test_memory_getRange_starts_at_pos :
    eight.getRange 2 3 = .ok [0x0102, 0x0103, 0x0104] ∧ eight.getRange 8 0 = .ok [] ∧
      eight.getRange 9 0 = .error (.pointerRangeOverflow 8 9 9) ∧
      (block 65536 []).getRange 0xFFFA 13 = .error (.pointerRangeOverflow 65536 65530 65543) := by decide

theorem test_memory_setRange :
    eight.setRange 6 [1, 2, 3] = .error (.pointerRangeOverflow 8 6 9) ∧
      eight.setRange 5 [1, 2, 3] =
        .ok (Memory.ofWords [0x0100, 0x0101, 0x0102, 0x0103, 0x0104, 1, 2, 3]) := by decide

theorem test_storing_zero_removes_the_entry :
    (block 8 [(3, 7)]).set 3 0 = .ok (block 8 []) := by decide

/-! ### Something meets the hypotheses of every statement -/

theorem test_witness_DecodeOfEncodeGivesTheInstructionBack :
    (Instr.jumpr 0x80 7).wellFormed = true ∧ ∀ w, Instr.jumpr 0x80 7 ≠ .invalid w :=
  ⟨rfl, fun _ h => by cases h⟩

theorem test_witness_ReservedWordsAndNoOthersDecodeToInvalid :
    (0x0014 : Word).toNat % 32 = 20 ∧ (0xFFFF : Word).toNat % 32 = 31 ∧ decode 0xFFFF = .invalid 0xFFFF := by
  decide

theorem test_witness_IgnoredBitsTakeNoPartInDecoding :
    reservedWord 0xFE21 = false ∧ (0x0021 : Word) &&& usedBits 0xFE21 = 0xFE21 &&& usedBits 0xFE21 := by decide

theorem test_witness_EveryWordDecodesToAWellFormedInstruction : decode 0x001F = .invalid 0x001F := by decide

theorem test_witness_StepRunsTheDecodedInstruction :
    (row 0x0428 []).main.get ((row 0x0428 []).reg pcReg).toNat = .ok 0x0428 ∧ decode 0x0428 = .add 1 2 := by
  decide

theorem test_witness_FailedFetchFaultsAndRestartsAtZero :
    let s := coreOf [(14, 0x0020)] (block 32 []) (block 4 [])
    let e := coreOf [(14, 0x0000)] (block 0 []) (block 0 [])
    s.main.length ≤ (s.reg pcReg).toNat ∧ e.main.length ≤ (e.reg pcReg).toNat := by decide

theorem test_witness_EveryStepKeepsTheInvariant :
    State.reset.Inv ∧ (row 0x0021 [(15, 0x0003)]).Inv ∧ ∃ t, step (row 0x0021 [(15, 0x0003)]) = .next t :=
  ⟨by decide, by decide, _, rfl⟩

theorem test_witness_EveryResetMeetsTheInvariant :
    eight.wf = true ∧ eight.length ≤ 65536 ∧ (block 65536 []).length ≤ 65536 ∧ 65535 ≤ 65535 := by decide

theorem test_witness_EveryTransactionKeepsTheInvariant :
    (∀ x ∈ [Transaction.reset eight 0xFFFF 65535, .write 7 0, .writeRange 5 [1, 2, 3], .step],
      x.legal = true) ∧ State.reset.Inv ∧ (∃ t a, perform (.writeRange 5 [1, 2, 3]) State.reset = some (t, a)) ∧
      ∃ t, performAll [.reset eight 0xFFFF 65535, .write 7 0, .writeRange 5 [1, 2, 3], .step] State.reset =
        some (t, [.ok, .ok, .ok, .fault (.pointerOutOfRange 8 65535)]) :=
  ⟨by decide, by decide, ⟨_, _, rfl⟩, _, rfl⟩

theorem test_witness_MemoryLengthsAreFixedBetweenResets :
    (Transaction.write 7 0).keepsCore = true ∧ ∃ t a, perform (.write 7 0) State.reset = some (t, a) :=
  ⟨rfl, _, _, rfl⟩

/-- A fault of an instruction, and a failed fetch. -/
theorem test_witness_FaultingStepChangesNothingButPc :
    (∃ t f, step (row 0x042B []) = .next t ∧ t.result = .fault f) ∧
      ∃ t f, step (coreOf [(14, 0x0020)] (block 32 []) (block 4 [])) = .next t ∧ t.result = .fault f :=
  ⟨⟨_, .divisionByZero, rfl, rfl⟩, _, .pointerOutOfRange 32 32, rfl, rfl⟩

theorem test_witness_StepResultFollowsTheFaultTable :
    (∃ t, step (row 0x0427 [(1, 0x0020)]) = .next t) ∧
      (row 0x0427 [(1, 0x0020)]).main.get ((row 0x0427 [(1, 0x0020)]).reg pcReg).toNat = .ok 0x0427 ∧
      32 ≤ ((coreOf [(14, 0x0020)] (block 32 []) (block 4 [])).reg pcReg).toNat :=
  ⟨⟨_, rfl⟩, by decide, by decide⟩

/-- SP at the top of the stack memory, and a word with another destination. -/
theorem test_witness_StackPointerStaysInTheStack :
    let s := row 0x00A2 [(15, 0x0004)]
    s.stack.length ≤ 65535 ∧ (s.reg spReg).toNat ≤ s.stack.length ∧
      s.main.get (s.reg pcReg).toNat = .ok 0x00A2 ∧ (decode 0x00A2).destination ≠ some spReg := by decide

theorem test_witness_OnlyStackInstructionsReachTheStackMemory :
    ((Instr.save 1 2).usesStack = false ∧ ∃ t, exec (.save 1 2) (row 0x0427 []) = .next t) ∧
      (Instr.push 1).usesStack = true ∧ ∃ t, exec (.push 1) (row 0x0021 []) = .next t :=
  ⟨⟨rfl, _, rfl⟩, rfl, _, rfl⟩

theorem test_witness_OnlySaveAndSaverStoreToMainMemory :
    (Instr.push 1).storesToMain = false ∧ ∃ t, exec (.push 1) (row 0x0021 []) = .next t := ⟨rfl, _, rfl⟩

theorem test_witness_InstructionsWriteOnlyTheTabledRegisters :
    ∃ t, exec (.pop 5) (row 0x00A2 [(15, 0x0001)]) = .next t := ⟨_, rfl⟩

theorem test_witness_FlagsPersistAcrossOtherInstructions :
    (Instr.load 1 2).destination ≠ some flagsReg ∧ (Instr.load 1 2).writesOvf = false ∧
      (Instr.load 1 2).writesCmp = false ∧ ∃ t, exec (.load 1 2) (row 0x0426 []) = .next t :=
  ⟨by decide, rfl, rfl, _, rfl⟩

theorem test_witness_AddWritesTheSumAndItsOverflow : (14 : Reg) ≠ flagsReg ∧ (12 : Reg) ≠ flagsReg := by decide

theorem test_witness_SubWritesTheDifferenceAndItsBorrow : (0 : Reg) ≠ flagsReg := by decide

theorem test_witness_MulWritesTheLowProductAndItsOverflow : (15 : Reg) ≠ flagsReg := by decide

theorem test_witness_DivWritesTheQuotientAndClearsOverflow :
    (1 : Reg) ≠ flagsReg ∧ (row 0x042B [(2, 0x0001)]).reg 2 ≠ 0 := by decide

theorem test_witness_DivByZeroRaisesDivisionByZero :
    (row 0x042B []).reg 2 = 0 ∧ (row 0x042B [(2, 0x0001)]).reg 2 ≠ 0 := by decide

theorem test_witness_ArithmeticIntoFlagsEndsWithTheOverflowBit : (row 0x05AB [(2, 0x0001)]).reg 2 ≠ 0 := by
  decide

theorem test_witness_ShiftsMoveByTheAmountModulo16 : (1 : Reg) ≠ flagsReg := by decide

/-- The last word of main memory, and the first address after it. -/
theorem test_witness_LoadReadsMainMemoryOrFaults :
    let s := row 0x0426 [(2, 0x001F)] [(31, 0x00AA)]
    let o := row 0x0426 [(2, 0x0020)]
    s.main.get (s.reg 2).toNat = .ok 0x00AA ∧ (s.reg 2).toNat < s.main.length ∧
      o.main.length ≤ (o.reg 2).toNat := by decide

theorem test_witness_SaveWritesOneWordOrFaults :
    let s := row 0x0427 [(1, 0x001F), (2, 0xBEEF)]
    let o := row 0x0427 [(1, 0x0020), (2, 0xBEEF)]
    (s.main.wf = true ∧ (s.reg 1).toNat < s.main.length) ∧
      o.main.wf = true ∧ o.main.length ≤ (o.reg 1).toNat := by decide

theorem test_witness_LoadrReadsAtPcPlusOffsetOrFaults :
    let s := row 0x0F1C [] [(31, 0x00AA)]
    s.main.get (effectiveAddress s 15) = .ok 0x00AA ∧ effectiveAddress s 15 < s.main.length ∧
      s.main.length ≤ effectiveAddress s 16 := by decide

theorem test_witness_SaverWritesAtPcPlusOffsetOrFaults :
    let s := row 0x0F1E [(0, 0xBEEF)]
    s.main.wf = true ∧ (s.relAddr 15).toNat < s.main.length ∧ s.main.length ≤ (s.relAddr 16).toNat := by decide

/-- PC before the last word, and PC at 0xFFFF, whose next address is 0. -/
theorem test_witness_StoredWordIsTheNextInstruction :
    let s := row 0x011E [(0, 0x0428), (14, 0x001E)]
    let v := (coreOf [(0, 0x0428), (14, 0xFFFF)] (block 65536 []) (block 0 [])).withFetchWord 16 0x011E
    (s.Inv ∧ s.main.get (s.reg pcReg).toNat = .ok 0x011E ∧ decode 0x011E = .saver 1 ∧
      ((s.reg pcReg).toNat + 1) % 65536 < s.main.length) ∧
      v.Inv ∧ v.main.get (v.reg pcReg).toNat = .ok 0x011E ∧
        ((v.reg pcReg).toNat + 1) % 65536 < v.main.length := by decide

theorem test_witness_OutOfRangeAccessIsSkippedWithItsError :
    let l := row 0x0426 [(2, 0x0020)]
    let s := row 0x0427 [(1, 0xFFFF)]
    let r := row 0x101C []
    let v := row 0x101E []
    (l.main.get (l.reg pcReg).toNat = .ok 0x0426 ∧ decode 0x0426 = .load 1 2 ∧
      l.main.length ≤ (l.reg 2).toNat) ∧
    (s.main.get (s.reg pcReg).toNat = .ok 0x0427 ∧ decode 0x0427 = .save 1 2 ∧
      s.main.length ≤ (s.reg 1).toNat) ∧
    (r.main.get (r.reg pcReg).toNat = .ok 0x101C ∧ decode 0x101C = .loadr 16 ∧
      r.main.length ≤ effectiveAddress r 16) ∧
    v.main.get (v.reg pcReg).toNat = .ok 0x101E ∧ decode 0x101E = .saver 16 ∧
      v.main.length ≤ effectiveAddress v 16 := by decide

/-- The last slot, in a small and in the largest stack memory. -/
theorem test_witness_PushStoresAtSpAndRaisesSp :
    let s := row 0x0021 [(15, 0x0003)]
    let v := row 0x0021 [(15, 0xFFFE)] [] (block 65535 [])
    (s.Inv ∧ (s.reg spReg).toNat < s.stack.length) ∧ v.Inv ∧ (v.reg spReg).toNat < v.stack.length := by decide

theorem test_witness_PopLowersSpAndReadsTheSlot :
    let s := row 0x00A2 [(15, 0x0001)]
    let v := row 0x01E2 [(15, 0x0004)]
    (0 < (s.reg spReg).toNat ∧ (s.reg spReg).toNat ≤ s.stack.length ∧ (5 : Reg) ≠ spReg) ∧
      0 < (v.reg spReg).toNat ∧ (v.reg spReg).toNat ≤ v.stack.length := by decide

theorem test_witness_PushaStoresTheThirteenRegisters :
    let s := row 0x0003 [(15, 0x0003)] [] (block 16 [])
    s.Inv ∧ (s.reg spReg).toNat + 13 ≤ s.stack.length := by decide

theorem test_witness_PopaLoadsTheThirteenRegisters :
    let s := row 0x0004 [(15, 0x000D)] [] (block 13 [])
    13 ≤ (s.reg spReg).toNat ∧ (s.reg spReg).toNat ≤ s.stack.length := by decide

/-- Each clause at the first value that raises its fault. -/
theorem test_witness_StackFaultsByTheirExactConditions :
    let sp := fun (n : Word) => ((row 0 [(15, n)]).reg spReg).toNat
    let len := (row 0 []).stack.length
    len ≤ sp 4 ∧ len < sp 0 + 13 ∧ sp 0 = 0 ∧ (0 < sp 5 ∧ len < sp 5) ∧ sp 12 < 13 ∧ 13 ≤ sp 13 ∧ len < sp 13 := by
  decide

/-- PUSH r14 and POP r14 in the two words at PC, on an empty stack. -/
theorem test_witness_PushThenPopRestoresRegisterAndSp :
    let s := row 0x01C1 [] [(17, 0x01C2)]
    s.Inv ∧ (s.reg spReg).toNat < s.stack.length ∧ s.main.get (s.reg pcReg).toNat = .ok 0x01C1 ∧
      decode 0x01C1 = .push pcReg ∧ s.main.get (s.reg pcReg + 1).toNat = .ok 0x01C2 ∧
      decode 0x01C2 = .pop pcReg := by decide

theorem test_witness_PopaRestoresWhatPushaSaved :
    let s := row 0x0003 countedRegs [] (block 13 [])
    s.Inv ∧ (s.reg spReg).toNat + 13 ≤ s.stack.length ∧
      ∃ t u : State, exec .pusha s = .next t ∧ u.stack = t.stack ∧ u.reg spReg = t.reg spReg :=
  ⟨by decide, by decide, _, _, rfl, rfl, rfl⟩

theorem test_witness_ConditionCodesAbove3Fault :
    4 ≤ (4 : BitVec 4).toNat ∧ 4 ≤ (15 : BitVec 4).toNat ∧ 4 ≤ (4 : BitVec 3).toNat ∧ (3 : BitVec 4).toNat ≤ 3 ∧
      (3 : BitVec 3).toNat ≤ 3 := by decide

theorem test_witness_JumpsCompleteAndLandWhereTheTableSays :
    let j := row 0x0652 [(13, 0x0001)]
    let r := row 0x047D [(13, 0x0002)]
    ((3 : BitVec 4).toNat ≤ 3 ∧ j.main.get (j.reg pcReg).toNat = .ok 0x0652 ∧ decode 0x0652 = .jump 2 3) ∧
      (3 : BitVec 3).toNat ≤ 3 ∧ r.main.get (r.reg pcReg).toNat = .ok 0x047D ∧ decode 0x047D = .jumpr 4 3 := by
  decide

/-- Each condition taken, and each but the first not taken. -/
theorem test_conditions_taken_and_not_taken :
    (Taken (row 0 []) 0 ∧ Taken (row 0 [(13, 0x0002)]) 1 ∧ Taken (row 0 [(13, 0x0001)]) 2) ∧
      (Taken (row 0 [(13, 0x0001)]) 3 ∧ ¬ Taken (row 0 [(13, 0xFFFD)]) 1) ∧
      ¬ Taken (row 0 [(13, 0x0002)]) 2 ∧ ¬ Taken (row 0 [(13, 0xFFFE)]) 3 := by decide

theorem test_witness_NopChangesNothingButPc :
    let s := row 0xFFE0 []
    (0xFFE0 : Word).toNat % 32 = 0 ∧ s.main.get (s.reg pcReg).toNat = .ok 0xFFE0 := by decide

theorem test_witness_IntAndInvalidChangeNothingButPc :
    let s := row 0xFF13 []
    let v := row 0xFFFF []
    (s.main.get (s.reg pcReg).toNat = .ok 0xFF13 ∧ decode 0xFF13 = .int 255) ∧
      v.main.get (v.reg pcReg).toNat = .ok 0xFFFF ∧ decode 0xFFFF = .invalid 0xFFFF := by decide

theorem test_witness_HostSingleWordAccessIsBoundsChecked :
    let s := coreOf [] eight (block 0 [])
    s.main.wf = true ∧ 7 < s.main.length ∧ s.main.length ≤ 8 := by decide

/-- The whole block, the empty window at its end, and one word too many. -/
theorem test_witness_HostRangeAccessIsAllOrNothing :
    let s := coreOf [] eight (block 0 [])
    s.main.wf = true ∧ 5 + ([1, 2, 3] : List Word).length ≤ s.main.length ∧
      8 + ([] : List Word).length ≤ s.main.length ∧ s.main.length < 6 + ([1, 2, 3] : List Word).length := by decide

theorem test_witness_HostAccessReachesMainMemoryOnly :
    (Transaction.writeRange 5 [1, 2, 3]).isHostAccess = true ∧
      ∃ t a u, perform (.writeRange 5 [1, 2, 3]) (coreOf [] eight (block 0 [])) = some (t, a) ∧
        u.main = (coreOf [] eight (block 0 [])).main ∧ u ≠ coreOf [] eight (block 0 []) :=
  ⟨rfl, _, _, coreOf [(1, 0x1111)] eight (block 4 []), rfl, rfl, by decide⟩

/-- A supplied word, a PC outside the block and a PC at its last word. -/
theorem test_witness_ResetSetsPcAndKeepsTheSuppliedMemory :
    ([0x021D, 0x0022] : List Word)[1]? = some 0x0022 ∧
      ([0x021D, 0x0022] : List Word).length ≤ (2 : Word).toNat ∧
      (1 : Word).toNat < ([0x021D, 0x0022] : List Word).length := by decide

/-- A first step before the end of a run of two, and a condition that does not hold before it. -/
theorem test_witness_RunIssuesStepsUntilItsConditionHolds :
    ∃ r t, run endAtFirstFault 5 lastCell = some r ∧ 1 < r.answers.length ∧ r.ended = true ∧
      performAll (List.replicate 1 .step) lastCell = some (t, [.ok]) := ⟨_, _, rfl, by decide, by decide, rfl⟩

theorem test_witness_RunOfAFixedNumberOfStepsIssuesExactlyThatMany : (0 : Nat) ≤ 0 ∧ 2 ≤ 2 := by decide

/-- One Ok and then a fault within a limit of two, a fault at once, and no fault within a limit of one. -/
theorem test_witness_RunUntilAFaultEndsAtTheFirstOne :
    (∃ t u, 1 < 2 ∧ performAll (List.replicate 1 .step) lastCell = some (t, List.replicate 1 .ok) ∧
      step t = .next u ∧ u.result = .fault (.pointerOutOfRange 32 32)) ∧
    (∃ t u, 0 < 1 ∧ performAll (List.replicate 0 .step) (row 0x042B []) = some (t, List.replicate 0 .ok) ∧
      step t = .next u ∧ u.result = .fault .divisionByZero) ∧
    ∃ t, performAll (List.replicate 1 .step) lastCell = some (t, List.replicate 1 .ok) :=
  ⟨⟨_, _, by decide, rfl, rfl, rfl⟩, ⟨_, _, by decide, rfl, rfl, rfl⟩, _, rfl⟩

theorem test_witness_ResetClearsRegistersFlagsSpAndStack :
    (15 : Reg) ≠ pcReg ∧ (0 : Reg) ≠ pcReg ∧ 65534 < 65535 := by decide

end Sys2Proof.Tests
end

/-! PROOF. RESET with supplied words (10_state.md R40, R43): what PC and main memory hold, and how the first step
begins. -/

namespace Sys2Proof.Proofs.Reset

open Sys2Proof.Machine

/-- A block built from words is as long as the list. -/
@[simp] theorem ofWords_length (ws : List Word) : (Memory.ofWords ws).length = ws.length := rfl

/-- A word of the list is the word `get` answers at its index. -/
theorem get_ofWords_of_getElem? {ws : List Word} {a : Nat} {x : Word} (h : ws[a]? = some x) :
    (Memory.ofWords ws).get a = .ok x := by
  obtain ⟨ha, hx⟩ := List.getElem?_eq_some_iff.1 h
  rw [Memory.get_ofWords, dif_pos ha, hx]

/-- PC after RESET, under its other name (10_state.md R40). -/
@[simp] theorem resetWith_pc (m : Memory) (p : Word) (n : Nat) : (State.resetWith m p n).pc = p := by
  simp [State.pc]

/-- Every instruction answers a next state: a completed one and a faulting one both do. -/
theorem exists_exec_next (i : Instr) (s : State) : ∃ t, exec i s = .next t := by
  obtain ⟨t, h⟩ | ⟨f, h⟩ := exec_ends i s
  · exact ⟨_, h.trans (complete_next.2 rfl)⟩
  · exact ⟨_, h.trans (raise_next.2 rfl)⟩

/-- A PC at or beyond the end of main memory makes the step a failed fetch (40_step_cycle.md R112). -/
theorem step_of_length_le_pc {s : State} (h : s.main.length ≤ s.pc.toNat) :
    step s = .next (advance ((s.setPc 0xFFFF).setResult
      (.fault (.pointerOutOfRange s.main.length s.pc.toNat)))) := by
  obtain ⟨hlt, _⟩ | ⟨_, hstep⟩ := step_cases s
  · omega
  · rw [hstep, finish_failFetch]

/-- No INITIAL_PC is refused: one outside the words supplied makes the first step return the memory's error. -/
theorem step_resetWith_outside {ws : List Word} {pc : Word} (h : ws.length ≤ pc.toNat) (n : Nat) :
    ∃ t, step (State.resetWith (Memory.ofWords ws) pc n) = .next t ∧
      t.result = .fault (.pointerOutOfRange ws.length pc.toNat) := by
  refine ⟨_, step_of_length_le_pc (by simpa using h), ?_⟩
  simp

/-- Settles O54: PC and main memory by the laws of `State.resetWith` and `Memory.ofWords`, the first step by
whether PC lies inside main memory. -/
theorem resetSetsPcAndKeepsTheSuppliedMemory : Obligations.ResetSetsPcAndKeepsTheSuppliedMemory := by
  intro ws pc n s
  have hreg : s.reg pcReg = pc := by simp [s]
  have hcells : ∀ (a : Nat) (x : Word), ws[a]? = some x → s.main.get a = .ok x :=
    fun _ _ => get_ofWords_of_getElem?
  refine ⟨hreg, rfl, hcells, fun hout => step_resetWith_outside hout n, fun hin => ?_⟩
  obtain ⟨t, ht⟩ := exists_exec_next (decode ws[pc.toNat]) s
  exact ⟨_, t, List.getElem?_eq_getElem hin, ht⟩

end Sys2Proof.Proofs.Reset

/-! PROOF. The words that decode to INVALID (30_encoding.md R92), counted by their opcode and payload. -/

namespace Sys2Proof.Proofs.Encoding

/-- The two reserved opcodes, 20 and 31 (30_encoding.md R85). -/
def reservedOpcode : Bool → BitVec 5
  | false => 20
  | true => 31

/-- The bits above the opcode field, 15:5. -/
def payloadOf (w : Word) : BitVec 11 := w.extractLsb' 5 11

/-- The word with a reserved opcode in bits 4:0 and a payload in bits 15:5. -/
def reservedWordOf (x : Bool × BitVec 11) : Word := x.2 ++ reservedOpcode x.1

theorem reservedOpcode_injective : Function.Injective reservedOpcode := by decide

@[simp] theorem opcodeOf_reservedWordOf (x : Bool × BitVec 11) :
    opcodeOf (reservedWordOf x) = reservedOpcode x.1 := BitVec.extractLsb'_append_eq_right

@[simp] theorem payloadOf_reservedWordOf (x : Bool × BitVec 11) : payloadOf (reservedWordOf x) = x.2 :=
  BitVec.extractLsb'_append_eq_left

/-- A word is its payload above its opcode (30_encoding.md R81). -/
theorem payloadOf_append_opcodeOf (w : Word) : payloadOf w ++ opcodeOf w = w :=
  BitVec.extractLsb'_append_extractLsb'

/-- Opcode and payload of the built word give both parts back. -/
theorem reservedWordOf_injective : Function.Injective reservedWordOf := by
  intro x y h
  have hop : reservedOpcode x.1 = reservedOpcode y.1 := by simpa using congrArg opcodeOf h
  have hpayload : x.2 = y.2 := by simpa using congrArg payloadOf h
  exact Prod.ext (reservedOpcode_injective hop) hpayload

/-- The opcode field is a reserved one exactly for the words R92 names by their value modulo 32. -/
theorem exists_opcodeOf_eq_reservedOpcode_iff (w : Word) :
    (∃ b, opcodeOf w = reservedOpcode b) ↔ w.toNat % 32 = 20 ∨ w.toNat % 32 = 31 := by
  rw [Bool.exists_bool, ← BitVec.toNat_inj, ← BitVec.toNat_inj, opcodeOf_toNat]
  rfl

/-- The built words are all the words with a reserved opcode, whatever their payload. -/
theorem exists_reservedWordOf_eq_iff (w : Word) :
    (∃ x, reservedWordOf x = w) ↔ w.toNat % 32 = 20 ∨ w.toNat % 32 = 31 := by
  rw [← exists_opcodeOf_eq_reservedOpcode_iff]
  constructor
  · rintro ⟨x, rfl⟩
    exact ⟨x.1, opcodeOf_reservedWordOf x⟩
  · rintro ⟨b, hb⟩
    refine ⟨(b, payloadOf w), ?_⟩
    rw [reservedWordOf, ← hb, payloadOf_append_opcodeOf]

/-- A reserved opcode has no row of its own in the decoder, so its word falls through to INVALID. -/
theorem decode_of_reserved {w : Word} (h : w.toNat % 32 = 20 ∨ w.toNat % 32 = 31) :
    decode w = .invalid w := by
  rw [← opcodeOf_toNat] at h
  unfold decode
  obtain h | h := h
  · rw [h]; rfl
  · rw [h]; rfl

/-- Only the decoder's last row gives an INVALID, and the opcodes the rows above leave are 20 and 31. -/
theorem reserved_of_decode_invalid {w v : Word} (h : decode w = .invalid v) :
    w.toNat % 32 = 20 ∨ w.toNat % 32 = 31 := by
  rw [← opcodeOf_toNat]
  unfold decode at h
  split at h
  case h_31 =>
    have hlt := (opcodeOf w).isLt
    simp only [imp_false] at *
    omega
  all_goals cases h

/-- INVALID is the verdict for the reserved opcodes and for no other (30_encoding.md R92). -/
theorem exists_decode_eq_invalid_iff (w : Word) :
    (∃ v, decode w = .invalid v) ↔ w.toNat % 32 = 20 ∨ w.toNat % 32 = 31 :=
  ⟨fun ⟨_, h⟩ => reserved_of_decode_invalid h, fun h => ⟨w, decode_of_reserved h⟩⟩

/-- Settles O2: the decoder's fall-through row in both directions, and the words it takes counted by
`reservedWordOf`, one for each reserved opcode and payload. -/
theorem reservedWordsAndNoOthersDecodeToInvalid : Obligations.ReservedWordsAndNoOthersDecodeToInvalid :=
  ⟨fun _ => decode_of_reserved, fun _ _ => reserved_of_decode_invalid, reservedWordOf,
    reservedWordOf_injective, fun w =>
      (exists_decode_eq_invalid_iff w).trans (exists_reservedWordOf_eq_iff w).symm⟩

end Sys2Proof.Proofs.Encoding

/-! PROOF. The step cycle on a successful fetch (40_step_cycle.md R110, R111, R115). -/

namespace Sys2Proof.Proofs.StepCycle

open Sys2Proof.Machine Sys2Proof.Proofs.Reset

/-- On a successful fetch the step is what the decoded word answers, ended by the increment of PC. -/
theorem step_of_fetch_ok {s : State} {w : Word} (h : fetch s = .ok w) : step s = finish (exec (decode w) s) := by
  simp only [step, h]

/-- The final increment adds 1 to PC modulo 65536 (40_step_cycle.md R115). -/
theorem advance_pc_toNat (s : State) :
    ((advance s).reg pcReg).toNat = ((s.reg pcReg).toNat + 1) % 65536 := by
  rw [advance_reg, if_pos rfl, BitVec.toNat_add]
  rfl

/-- The final increment writes no register but PC. -/
theorem regsKeptBut_advance (s : State) : RegsKeptBut [pcReg] s (advance s) := by
  intro r hr
  rw [advance_reg, if_neg (List.ne_of_not_mem_cons hr)]

/-- Settles O7: every instruction answers a next state `t`, so the step answers `advance t`, and the increment
touches PC only. -/
theorem stepRunsTheDecodedInstruction : Obligations.StepRunsTheDecodedInstruction := by
  rintro s w i hfetch rfl
  obtain ⟨t, ht⟩ := exists_exec_next (decode w) s
  have hstep : step s = .next (advance t) :=
    (step_of_fetch_ok hfetch).trans (finish_next.2 ⟨t, ht, rfl⟩)
  exact ⟨t, advance t, ht, hstep, advance_pc_toNat t, regsKeptBut_advance t, fun _ => rfl, fun _ => rfl, rfl⟩

end Sys2Proof.Proofs.StepCycle

/-! PROOF. The bitwise family (43_bitwise.md R150 to R155): one shape for all five instructions, and the bits of
each result. -/

namespace Sys2Proof.Proofs.Bitwise

open Sys2Proof.Machine

/-! ### What each instruction writes (43_bitwise.md R150 to R154) -/

theorem exec_not (rd : Reg) (s : State) : exec (.not rd) s = writeResult rd (notWord (s.reg rd)) s := rfl

theorem exec_xor (rd rs : Reg) (s : State) :
    exec (.xor rd rs) s = writeResult rd (s.reg rd ^^^ s.reg rs) s := rfl

theorem exec_and (rd rs : Reg) (s : State) :
    exec (.and rd rs) s = writeResult rd (s.reg rd &&& s.reg rs) s := rfl

theorem exec_or (rd rs : Reg) (s : State) :
    exec (.or rd rs) s = writeResult rd (s.reg rd ||| s.reg rs) s := rfl

theorem exec_nor (rd rs : Reg) (s : State) :
    exec (.nor rd rs) s = writeResult rd (notWord (s.reg rd ||| s.reg rs)) s := rfl

/-! ### The shape the family shares -/

/-- A result written to a register answers the state with that register replaced and result Ok. -/
theorem writeResult_next {rd : Reg} {v : Word} {s t : State} :
    writeResult rd v s = .next t ↔ t = (s.setReg rd v).setResult .ok := complete_next

/-- A register write keeps every other register. -/
theorem regsKeptBut_setReg (s : State) (rd : Reg) (v : Word) : RegsKeptBut [rd] s (s.setReg rd v) := by
  intro r hr
  rw [State.setReg_reg, if_neg (List.ne_of_not_mem_cons hr)]

/-- An instruction that writes one result completes, leaves the result's bits in `rd`, and keeps everything
else; FLAGS is a register like the others (10_state.md R28). -/
theorem completes_with_bits {i : Instr} {rd : Reg} {v : Word} {s : State} {bit : Nat → Bool}
    (hexec : exec i s = writeResult rd v s) (hbit : ∀ j, j < 16 → v.getLsbD j = bit j) :
    ∃ t, exec i s = .next t ∧ t.result = .ok ∧ (∀ j, j < 16 → (t.reg rd).getLsbD j = bit j) ∧
      RegsKeptBut [rd] s t ∧ MainKept s t ∧ StackKept s t := by
  have hrd : ((s.setReg rd v).setResult .ok).reg rd = v := by simp
  refine ⟨_, hexec.trans (writeResult_next.2 rfl), rfl, fun j hj => ?_, regsKeptBut_setReg s rd v,
    fun _ => rfl, fun _ => rfl⟩
  rw [hrd, hbit j hj]

/-- A bit of the complement, inside the word (00_scope.md R12, `NOT_16`). -/
theorem notWord_getLsbD (w : Word) {j : Nat} (hj : j < 16) : (notWord w).getLsbD j = !w.getLsbD j := by
  simp [notWord, hj]

/-- Settles O29: each of the five writes one result to rd, and the bits of that result are the operation on the
operands' bits. -/
theorem bitwiseInstructionsWorkBitByBitAndWriteNoFlag :
    Obligations.BitwiseInstructionsWorkBitByBitAndWriteNoFlag := by
  intro rd rs s writes x y
  refine ⟨?not, ?xor, ?and, ?or, ?nor⟩
  case not => exact completes_with_bits (exec_not rd s) fun _ hj => notWord_getLsbD _ hj
  case xor => exact completes_with_bits (exec_xor rd rs s) fun _ _ => BitVec.getLsbD_xor
  case and => exact completes_with_bits (exec_and rd rs s) fun _ _ => BitVec.getLsbD_and
  case or => exact completes_with_bits (exec_or rd rs s) fun _ _ => BitVec.getLsbD_or
  case nor =>
    refine completes_with_bits (exec_nor rd rs s) fun j hj => ?_
    rw [notWord_getLsbD _ hj, BitVec.getLsbD_or]

end Sys2Proof.Proofs.Bitwise

/-! PROOF. Decode and encode as inverses (30_encoding.md R87 to R91): which bits each format uses, once per row of the
opcode map, and the round trips that follow. -/

namespace Sys2Proof.Proofs.Codec

open Sys2Proof.Machine Sys2Proof.Proofs.Encoding

/-! ### Decode after encode -/

/-- The decoder finds the opcode and the fields of an instruction where its format's encoder puts them; an INVALID
has no word of its own (30_encoding.md R90). -/
theorem decode_encode {i : Instr} (hi : ∀ w, i ≠ .invalid w) : decode (encode i) = i := by
  cases i
  case invalid w => exact absurd rfl (hi w)
  case nop | pusha | popa => rw [encode, decode, opcodeOf_encodeZ]; rfl
  case push | pop | lnot | not => rw [encode, decode, opcodeOf_encodeR, reg0Of_encodeR]; rfl
  case jump => rw [encode, decode, opcodeOf_encodeRR, reg0Of_encodeRR, cond4Of_encodeRR]; rfl
  case int | loadr | saver => rw [encode, decode, opcodeOf_encodeI, argOf_encodeI]; rfl
  case jumpr => rw [encode, decode, opcodeOf_encodeSC, argOf_encodeSC, cond3Of_encodeSC]; rfl
  all_goals rw [encode, decode, opcodeOf_encodeRR, reg0Of_encodeRR, reg1Of_encodeRR]; rfl

/-- Settles O1: no instruction but an INVALID loses anything in its canonical word. -/
theorem decodeOfEncodeGivesTheInstructionBack : Obligations.DecodeOfEncodeGivesTheInstructionBack :=
  fun _ _ hi => decode_encode hi

/-! ### Encode after decode -/

/-- A word's opcode field, from the row of the opcode map it selects. -/
theorem ofNat_eq_opcodeOf {w : Word} {n : Nat} (h : (opcodeOf w).toNat = n) : BitVec.ofNat 5 n = opcodeOf w := by
  rw [← h, BitVec.ofNat_toNat, BitVec.setWidth_eq]

/-- A reserved word has no used bit, as its INVALID encodes to the zero word (30_encoding.md R90). -/
theorem usedBits_of_reserved {w : Word} (h : w.toNat % 32 = 20 ∨ w.toNat % 32 = 31) : usedBits w = 0 := by
  unfold usedBits
  obtain h | h := h
  · rw [h]; rfl
  · rw [h]; rfl

/-- Row by row of the opcode map: encoding a decoded word keeps the bits of the fields of its format
(30_encoding.md R87, R90). -/
theorem encode_decode (w : Word) : encode (decode w) = w &&& usedBits w := by
  by_cases hres : w.toNat % 32 = 20 ∨ w.toNat % 32 = 31
  · rw [decode_of_reserved hres, usedBits_of_reserved hres]; exact BitVec.and_zero.symm
  · rw [← opcodeOf_toNat] at hres
    unfold decode usedBits
    rw [← opcodeOf_toNat]
    split
    case h_31 =>
      have hlt := (opcodeOf w).isLt
      simp only [imp_false] at *
      omega
    all_goals
      rename_i h
      rw [h]
    case h_1 | h_4 | h_5 => exact encodeZ_fields (ofNat_eq_opcodeOf h)
    case h_2 | h_3 | h_18 | h_23 => exact encodeR_fields (ofNat_eq_opcodeOf h)
    case h_20 | h_28 | h_30 => exact encodeI_fields (ofNat_eq_opcodeOf h)
    case h_29 => exact encodeSC_fields (ofNat_eq_opcodeOf h)
    all_goals exact encodeRR_fields (ofNat_eq_opcodeOf h)

/-- Settles O3. -/
theorem encodeOfDecodeKeepsExactlyTheUsedBits : Obligations.EncodeOfDecodeKeepsExactlyTheUsedBits :=
  encode_decode

/-! ### Ignored bits -/

/-- The reserved words by their opcode field, as the decoder's lemmas spell it. -/
theorem reservedWord_eq_false_iff (w : Word) :
    reservedWord w = false ↔ ¬ (w.toNat % 32 = 20 ∨ w.toNat % 32 = 31) := by
  simp [reservedWord]

/-- The opcode field is used by every format, so a known word's used bits hold it (30_encoding.md R87). -/
theorem usedBits_and_opcode {w : Word} (h : reservedWord w = false) : usedBits w &&& 0x001F = 0x001F := by
  rw [reservedWord_eq_false_iff] at h
  unfold usedBits
  split
  case h_12 | h_13 => omega
  all_goals rfl

/-- Words that agree on the bits a known opcode's format uses have the same opcode. -/
theorem opcodeOf_eq_of_and_usedBits {w v : Word} (hw : reservedWord w = false)
    (h : v &&& usedBits w = w &&& usedBits w) : opcodeOf v = opcodeOf w := by
  have hop : v &&& 0x001F = w &&& 0x001F := by
    rw [← usedBits_and_opcode hw, ← BitVec.and_assoc, h, BitVec.and_assoc]
  rw [← opcodeOf_encodeZ (opcodeOf v), ← opcodeOf_encodeZ (opcodeOf w), encodeZ_fields rfl, encodeZ_fields rfl, hop]

/-- A word with a known opcode is no INVALID. -/
theorem decode_ne_invalid {w : Word} (h : reservedWord w = false) (v : Word) : decode w ≠ .invalid v :=
  fun hd => (reservedWord_eq_false_iff w).1 h (reserved_of_decode_invalid hd)

/-- Settles O4: the two words have one opcode, so the same used bits, so their instructions encode alike; and
encoding loses nothing. -/
theorem ignoredBitsTakeNoPartInDecoding : Obligations.IgnoredBitsTakeNoPartInDecoding := by
  intro w v hw h
  have hmod : v.toNat % 32 = w.toNat % 32 := by
    rw [← opcodeOf_toNat, ← opcodeOf_toNat, opcodeOf_eq_of_and_usedBits hw h]
  have hused : usedBits v = usedBits w := by rw [usedBits, usedBits, hmod]
  have hv : reservedWord v = false := by rw [reservedWord, hmod]; exact hw
  calc decode v = decode (encode (decode v)) := (decode_encode (decode_ne_invalid hv)).symm
    _ = decode (encode (decode w)) := by rw [encode_decode, encode_decode, hused, h]
    _ = decode w := decode_encode (decode_ne_invalid hw)

/-! ### Well-formedness -/

/-- Only an INVALID can be ill-formed (30_encoding.md R93). -/
theorem wellFormed_of_ne_invalid {i : Instr} (hi : ∀ w, i ≠ .invalid w) : i.wellFormed = true := by
  cases i
  case invalid w => exact absurd rfl (hi w)
  all_goals rfl

/-- Settles O5: a reserved word is carried by its INVALID, and every other word gives an instruction that is
well formed whatever its operands. -/
theorem everyWordDecodesToAWellFormedInstruction : Obligations.EveryWordDecodesToAWellFormedInstruction := by
  intro w
  cases hw : reservedWord w with
  | true =>
    have hres : w.toNat % 32 = 20 ∨ w.toNat % 32 = 31 := by simpa [reservedWord] using hw
    rw [decode_of_reserved hres]
    exact ⟨hw, fun _ h => (Instr.invalid.inj h).symm⟩
  | false =>
    exact ⟨wellFormed_of_ne_invalid (decode_ne_invalid hw), fun v h => absurd h (decode_ne_invalid hw v)⟩

/-- Settles O6. -/
theorem writtenOutWordsDecodeToTheirInstructions : Obligations.WrittenOutWordsDecodeToTheirInstructions := by
  unfold Obligations.WrittenOutWordsDecodeToTheirInstructions
  decide

end Sys2Proof.Proofs.Codec

/-! PROOF. What a completed instruction has done to the state, said once for all instructions, with what its row of
the tables says about it; the invariants and the frames of the step are short inductions on it. -/

namespace Sys2Proof.Proofs.Effects

open Sys2Proof.Machine

/-- How an instruction that completes changes the state: one constructor for each shape of meaning, each with the
facts of 10_state.md R23 and R33 about the instructions of that shape. -/
inductive Effect (s : State) : Instr → State → Prop
  | nothing {i : Instr} (hstack : i.usesStack = false) : Effect s i s
  | result {i : Instr} {rd : Reg} (v : Word) (hwrites : i.writes = [rd]) (hdest : i.destination = some rd)
      (hstack : i.usesStack = false) : Effect s i (s.setReg rd v)
  | resultOvf {i : Instr} {rd : Reg} (v : Word) (b : Bool) (hwrites : i.writes = [rd, flagsReg])
      (hdest : i.destination = some rd) (hovf : i.writesOvf = true) (hstack : i.usesStack = false) :
      Effect s i ((s.setReg rd v).setOvf b)
  | cmp {i : Instr} (b : Bool) (hwrites : i.writes = [flagsReg]) (hcmp : i.writesCmp = true)
      (hstack : i.usesStack = false) : Effect s i (s.setCmp b)
  | pc {i : Instr} (v : Word) (hwrites : i.writes = [pcReg]) (hstack : i.usesStack = false) :
      Effect s i (s.setPc v)
  | store {i : Instr} {m : Memory} {a : Nat} {v : Word} (hset : s.main.set a v = .ok m)
      (hstore : i.storesToMain = true) (hstack : i.usesStack = false) : Effect s i (s.setMain m)
  | push {m : Memory} (rd : Reg) (hroom : s.sp.toNat < s.stack.length)
      (hset : s.stack.set s.sp.toNat (s.reg rd) = .ok m) :
      Effect s (.push rd) ((s.setStack m).setSp (s.sp + 1))
  | pop (rd : Reg) (hpos : s.sp ≠ 0) (hin : s.sp.toNat ≤ s.stack.length) :
      Effect s (.pop rd) ((s.setSp (s.sp - 1)).setReg rd (s.stack.cell (s.sp.toNat - 1)))
  | pusha {m : Memory} (hroom : s.sp.toNat + 13 ≤ s.stack.length)
      (hset : s.stack.setRange s.sp.toNat s.block = .ok m) :
      Effect s .pusha ((s.setStack m).setSp (s.sp + 13))
  | popa (hcount : 13 ≤ s.sp.toNat) (hin : s.sp.toNat ≤ s.stack.length) :
      Effect s .popa ((s.setSp (s.sp - 13)).setBlock (lookupCells s.stack.cells (s.sp.toNat - 13) 13))

/-- An instruction raises a fault in the state it was executed in, or completes with its effect. -/
def Ends (i : Instr) (s : State) : Prop :=
  (∃ f, exec i s = raise f s) ∨ ∃ t, exec i s = complete t ∧ Effect s i t

/-- A load ends with its word in the register, or with the memory's error. -/
theorem ends_of_loadInto {i : Instr} {s : State} {rd : Reg} {a : Word} (h : exec i s = loadInto rd a s)
    (hwrites : i.writes = [rd]) (hdest : i.destination = some rd) (hstack : i.usesStack = false) : Ends i s := by
  obtain ⟨_, hl⟩ | ⟨_, hl⟩ := loadInto_cases rd a s
  · exact .inr ⟨_, h.trans hl, .result _ hwrites hdest hstack⟩
  · exact .inl ⟨_, h.trans hl⟩

/-- A store ends with the word in its cell, or with the memory's error. -/
theorem ends_of_storeAt {i : Instr} {s : State} {a v : Word} (h : exec i s = storeAt a v s)
    (hstore : i.storesToMain = true) (hstack : i.usesStack = false) : Ends i s := by
  obtain ⟨_, _, hset, hs⟩ | ⟨_, hs⟩ := storeAt_cases a v s
  · exact .inr ⟨_, h.trans hs, .store hset hstore hstack⟩
  · exact .inl ⟨_, h.trans hs⟩

/-- A jump ends with its target in PC, with nothing changed, or with the fault of its code. -/
theorem ends_of_jumpTo {i : Instr} {s : State} {c : Nat} {target : Word} (h : exec i s = jumpTo c target s)
    (hwrites : i.writes = [pcReg]) (hstack : i.usesStack = false) : Ends i s := by
  obtain ⟨_, hj⟩ | ⟨_, hj⟩ | ⟨_, hj⟩ := jumpTo_cases c target s
  · exact .inr ⟨_, h.trans hj, .pc _ hwrites hstack⟩
  · exact .inr ⟨_, h.trans hj, .nothing hstack⟩
  · exact .inl ⟨_, h.trans hj⟩

/-- Every instruction ends in one of the ways of `Ends` (40_step_cycle.md R113, R114). -/
theorem ends (i : Instr) (s : State) : Ends i s := by
  cases i with
  | push rd =>
    obtain ⟨hroom, _, hset, h⟩ | ⟨_, h⟩ := execPush_cases rd s
    · exact .inr ⟨_, h, .push rd hroom hset⟩
    · exact .inl ⟨_, h⟩
  | pop rd =>
    obtain ⟨_, h⟩ | ⟨hpos, hin, h⟩ | ⟨_, _, h⟩ := execPop_cases rd s
    · exact .inl ⟨_, h⟩
    · exact .inr ⟨_, h, .pop rd hpos hin⟩
    · exact .inl ⟨_, h⟩
  | pusha =>
    obtain ⟨hroom, _, hset, h⟩ | ⟨_, h⟩ := execPusha_cases s
    · exact .inr ⟨_, h, .pusha hroom hset⟩
    · exact .inl ⟨_, h⟩
  | popa =>
    obtain ⟨_, h⟩ | ⟨hcount, hin, h⟩ | ⟨_, _, h⟩ := execPopa_cases s
    · exact .inl ⟨_, h⟩
    · exact .inr ⟨_, h, .popa hcount hin⟩
    · exact .inl ⟨_, h⟩
  | div rd rs =>
    obtain ⟨_, h⟩ | ⟨_, h⟩ := execDiv_cases rd rs s
    · exact .inl ⟨_, h⟩
    · exact .inr ⟨_, h, .resultOvf _ _ rfl rfl rfl rfl⟩
  | load rd rs => exact ends_of_loadInto (a := s.reg rs) rfl rfl rfl rfl
  | loadr off => exact ends_of_loadInto (a := s.relAddr off) rfl rfl rfl rfl
  | save rd rs => exact ends_of_storeAt (a := s.reg rd) (v := s.reg rs) rfl rfl rfl
  | saver off => exact ends_of_storeAt (a := s.relAddr off) (v := s.reg 0) rfl rfl rfl
  | jump rd c => exact ends_of_jumpTo (c := c.toNat) (target := s.reg rd - 1) rfl rfl rfl
  | jumpr off c => exact ends_of_jumpTo (c := c.toNat) (target := s.relAddr off) rfl rfl rfl
  | nop | int | invalid => exact .inr ⟨_, rfl, .nothing rfl⟩
  | move | not | xor | and | or | nor => exact .inr ⟨_, rfl, .result _ rfl rfl rfl⟩
  | add | sub | mul | shl | shr => exact .inr ⟨_, rfl, .resultOvf _ _ rfl rfl rfl rfl⟩
  | cmpeq | cmpne | cmpgt | cmplt | lxor | lnot => exact .inr ⟨_, rfl, .cmp _ rfl rfl rfl⟩

/-- The state an instruction answers: its own with the fault it raised, or the one its effect leaves, with Ok. -/
theorem exec_next_cases {i : Instr} {s t : State} (h : exec i s = .next t) :
    (∃ f, exec i s = raise f s ∧ t = s.setResult (.fault f)) ∨ ∃ u, Effect s i u ∧ t = u.setResult .ok := by
  obtain ⟨f, hf⟩ | ⟨u, hu, he⟩ := ends i s
  · exact .inl ⟨f, hf, raise_next.1 (hf.symm.trans h)⟩
  · exact .inr ⟨u, he, complete_next.1 (hu.symm.trans h)⟩

end Sys2Proof.Proofs.Effects

/-! PROOF. The host's transactions (00_scope.md R7): what each access to main memory answers, and that nothing stops the
core. -/

namespace Sys2Proof.Proofs.Transactions

open Sys2Proof.Machine Sys2Proof.Proofs.Reset

/-! ### What each host access answers (20_memory.md R51 to R54) -/

/-- A host read of one word. -/
theorem perform_read_cases (s : State) (pos : Nat) :
    (pos < s.main.length ∧ s.main.get pos = .ok (s.main.cell pos) ∧
        perform (.read pos) s = some (s, .word (s.main.cell pos))) ∨
      (s.main.length ≤ pos ∧
        perform (.read pos) s = some (s, .fault (.pointerOutOfRange s.main.length pos))) := by
  rw [perform]
  obtain ⟨h, he⟩ | ⟨h, he⟩ := Memory.get_eq s.main pos
  · exact .inl ⟨h, he, by rw [he]⟩
  · exact .inr ⟨h, by rw [he]⟩

/-- A host write of one word. -/
theorem perform_write_cases (s : State) (pos : Nat) (v : Word) :
    (pos < s.main.length ∧ ∃ m, s.main.set pos v = .ok m ∧ perform (.write pos v) s = some (s.setMain m, .ok)) ∨
      (s.main.length ≤ pos ∧
        perform (.write pos v) s = some (s, .fault (.pointerOutOfRange s.main.length pos))) := by
  rw [perform]
  obtain ⟨h, he⟩ | ⟨h, he⟩ := Memory.set_eq s.main pos v
  · exact .inl ⟨h, _, he, by rw [he]⟩
  · exact .inr ⟨h, by rw [he]⟩

/-- A host read of a range. -/
theorem perform_readRange_cases (s : State) (pos n : Nat) :
    (pos + n ≤ s.main.length ∧
        perform (.readRange pos n) s = some (s, .words (lookupCells s.main.cells pos n))) ∨
      (s.main.length < pos + n ∧
        perform (.readRange pos n) s = some (s, .fault (.pointerRangeOverflow s.main.length pos (pos + n)))) := by
  rw [perform]
  obtain ⟨h, he⟩ | ⟨h, he⟩ := Memory.getRange_eq s.main pos n
  · exact .inl ⟨h, by rw [he]⟩
  · exact .inr ⟨h, by rw [he]⟩

/-- A host write of a range. -/
theorem perform_writeRange_cases (s : State) (pos : Nat) (vs : List Word) :
    (pos + vs.length ≤ s.main.length ∧
        ∃ m, s.main.setRange pos vs = .ok m ∧ perform (.writeRange pos vs) s = some (s.setMain m, .ok)) ∨
      (s.main.length < pos + vs.length ∧ perform (.writeRange pos vs) s =
        some (s, .fault (.pointerRangeOverflow s.main.length pos (pos + vs.length)))) := by
  rw [perform]
  obtain ⟨h, he⟩ | ⟨h, he⟩ := Memory.setRange_eq s.main pos vs
  · exact .inl ⟨h, _, he, by rw [he]⟩
  · exact .inr ⟨h, by rw [he]⟩

/-- The main memory after a host access: the one before it, or what a `set` or `set_range` made of it. -/
inductive HostBlock (m : Memory) : Memory → Prop
  | kept : HostBlock m m
  | set {m' : Memory} {pos : Nat} {v : Word} (h : m.set pos v = .ok m') : HostBlock m m'
  | setRange {m' : Memory} {pos : Nat} {vs : List Word} (h : m.setRange pos vs = .ok m') : HostBlock m m'

/-- Putting back the main memory a state has changes nothing. -/
theorem setMain_eq_self {s : State} {m : Memory} (h : s.main = m) : s.setMain m = s := by
  subst h
  rfl

/-- What a host access leaves and answers depends on main memory alone, and it replaces main memory alone
(00_scope.md R7). -/
theorem perform_host_access {x : Transaction} (hx : x.isHostAccess = true) (m : Memory) :
    ∃ m' a, HostBlock m m' ∧ ∀ s : State, s.main = m → perform x s = some (s.setMain m', a) := by
  cases x with
  | reset | step => cases hx
  | read pos =>
    obtain ⟨_, he⟩ | ⟨_, he⟩ := Memory.get_eq m pos
    · exact ⟨m, .word _, .kept, fun s hs => by rw [perform, hs, he, setMain_eq_self hs]⟩
    · exact ⟨m, .fault _, .kept, fun s hs => by rw [perform, hs, he, setMain_eq_self hs]⟩
  | write pos v =>
    obtain ⟨_, he⟩ | ⟨_, he⟩ := Memory.set_eq m pos v
    · exact ⟨_, .ok, .set he, fun s hs => by rw [perform, hs, he]⟩
    · exact ⟨m, .fault _, .kept, fun s hs => by rw [perform, hs, he, setMain_eq_self hs]⟩
  | readRange pos n =>
    obtain ⟨_, he⟩ | ⟨_, he⟩ := Memory.getRange_eq m pos n
    · exact ⟨m, .words _, .kept, fun s hs => by rw [perform, hs, he, setMain_eq_self hs]⟩
    · exact ⟨m, .fault _, .kept, fun s hs => by rw [perform, hs, he, setMain_eq_self hs]⟩
  | writeRange pos vs =>
    obtain ⟨_, he⟩ | ⟨_, he⟩ := Memory.setRange_eq m pos vs
    · exact ⟨_, .ok, .setRange he, fun s hs => by rw [perform, hs, he]⟩
    · exact ⟨m, .fault _, .kept, fun s hs => by rw [perform, hs, he, setMain_eq_self hs]⟩

/-! ### Nothing stops the core (40_step_cycle.md R120) -/

/-- The step answers a next state after a fetch, since its instruction does, and after a failed fetch. -/
theorem exists_step_next (s : State) : ∃ t, step s = .next t := by
  obtain ⟨_, h⟩ | ⟨_, h⟩ := step_cases s
  · obtain ⟨t, ht⟩ := exists_exec_next (decode (s.main.cell s.pc.toNat)) s
    exact ⟨_, h.trans (finish_next.2 ⟨t, ht, rfl⟩)⟩
  · exact ⟨_, h.trans (finish_failFetch ..)⟩

/-- The three kinds of transaction (00_scope.md R7). -/
theorem transaction_kinds (x : Transaction) :
    (∃ m pc n, x = .reset m pc n) ∨ x = .step ∨ x.isHostAccess = true := by
  cases x with
  | reset => exact .inl ⟨_, _, _, rfl⟩
  | step => exact .inr (.inl rfl)
  | read | write | readRange | writeRange => exact .inr (.inr rfl)

/-- Every transaction is answered. -/
theorem exists_perform (x : Transaction) (s : State) : ∃ t a, perform x s = some (t, a) := by
  obtain ⟨m, pc, n, rfl⟩ | rfl | hx := transaction_kinds x
  · exact ⟨_, _, rfl⟩
  · obtain ⟨t, ht⟩ := exists_step_next s
    exact ⟨_, _, perform_step ht⟩
  · obtain ⟨_, _, _, h⟩ := perform_host_access hx s.main
    exact ⟨_, _, h s rfl⟩

/-- Settles O9. -/
theorem noStateAndNoInstructionStopsTheCore : Obligations.NoStateAndNoInstructionStopsTheCore :=
  ⟨exists_step_next, exists_exec_next, exists_perform⟩

/-- The transaction STEP is the model's step, with its result as the answer. -/
theorem perform_step_iff {s t : State} {a : Answer} :
    perform .step s = some (t, a) ↔ step s = .next t ∧ a = stepAnswer t.result := by
  constructor
  · intro h
    obtain ⟨u, hu⟩ := exists_step_next s
    cases (perform_step hu).symm.trans h
    exact ⟨hu, rfl⟩
  · rintro ⟨h, rfl⟩
    exact perform_step h

/-! ### The statements about host access -/

/-- Settles O51: the four answers, with the cells after a `set`. -/
theorem hostSingleWordAccessIsBoundsChecked : Obligations.HostSingleWordAccessIsBoundsChecked := by
  intro s pos v hwf
  refine ⟨fun hin => ⟨?read, ?write⟩, fun hout => ⟨?readFault, ?writeFault⟩⟩
  case read =>
    obtain ⟨_, hget, hread⟩ | ⟨hle, _⟩ := perform_read_cases s pos
    · exact ⟨_, hget, hread⟩
    · omega
  case write =>
    obtain ⟨_, m, hset, hwrite⟩ | ⟨hle, _⟩ := perform_write_cases s pos v
    · have hcell := Memory.get_set hset hwf
      exact ⟨_, hwrite, (hcell pos).trans (if_pos rfl), fun a ha => (hcell a).trans (if_neg ha), rfl, rfl, rfl⟩
    · omega
  case readFault =>
    obtain ⟨hlt, _⟩ | ⟨_, hread⟩ := perform_read_cases s pos
    · omega
    · exact hread
  case writeFault =>
    obtain ⟨hlt, _⟩ | ⟨_, hwrite⟩ := perform_write_cases s pos v
    · omega
    · exact hwrite

/-- A word inside the window of a range read is the word its cell holds. -/
theorem lookupCells_get {m : Memory} {pos n k : Nat} (hin : pos + n ≤ m.length) (hk : k < n) :
    ∃ x, (lookupCells m.cells pos n)[k]? = some x ∧ m.get (pos + k) = .ok x := by
  obtain ⟨_, hget⟩ | ⟨hle, _⟩ := Memory.get_eq m (pos + k)
  · exact ⟨_, (lookupCells_getElem? ..).trans (if_pos hk), hget⟩
  · omega

/-- Inside its window a range write stores the given words. -/
theorem get_setRange_inside {m m' : Memory} {pos k : Nat} {vs : List Word} {x : Word}
    (h : m.setRange pos vs = .ok m') (hm : m.wf = true) (hk : vs[k]? = some x) : m'.get (pos + k) = .ok x := by
  obtain ⟨hlt, hx⟩ := List.getElem?_eq_some_iff.1 hk
  rw [Memory.get_setRange h hm, dif_pos (by omega)]
  simp only [Nat.add_sub_cancel_left, hx]

/-- Outside its window a range write changes nothing. -/
theorem get_setRange_outside {m m' : Memory} {pos a : Nat} {vs : List Word} (h : m.setRange pos vs = .ok m')
    (hm : m.wf = true) (ha : a < pos ∨ pos + vs.length ≤ a) : m'.get a = m.get a := by
  rw [Memory.get_setRange h hm, dif_neg (by omega)]

/-- Settles O52: the four answers, with the cells inside and outside the window. -/
theorem hostRangeAccessIsAllOrNothing : Obligations.HostRangeAccessIsAllOrNothing := by
  intro s pos vs hwf
  refine ⟨fun hin => ⟨?read, ?write⟩, fun hout => ⟨?readFault, ?writeFault⟩⟩
  case read =>
    obtain ⟨_, hread⟩ | ⟨hlt, _⟩ := perform_readRange_cases s pos vs.length
    · exact ⟨_, hread, lookupCells_length .., fun k hk => lookupCells_get hin hk⟩
    · omega
  case write =>
    obtain ⟨_, m, hset, hwrite⟩ | ⟨hlt, _⟩ := perform_writeRange_cases s pos vs
    · exact ⟨_, hwrite, fun k x hk => get_setRange_inside hset hwf hk,
        fun a ha => get_setRange_outside hset hwf ha, rfl, rfl, rfl⟩
    · omega
  case readFault =>
    obtain ⟨hle, _⟩ | ⟨_, hread⟩ := perform_readRange_cases s pos vs.length
    · omega
    · exact hread
  case writeFault =>
    obtain ⟨hle, _⟩ | ⟨_, hwrite⟩ := perform_writeRange_cases s pos vs
    · omega
    · exact hwrite

/-- Settles O53: the access is one function of main memory, applied to both states. -/
theorem hostAccessReachesMainMemoryOnly : Obligations.HostAccessReachesMainMemoryOnly := by
  intro x s t u a hx h
  obtain ⟨m', b, _, hperform⟩ := perform_host_access hx s.main
  cases (hperform s rfl).symm.trans h
  exact ⟨rfl, rfl, rfl, hperform u⟩

end Sys2Proof.Proofs.Transactions

/-! PROOF. What every transaction keeps of the two memories (00_scope.md R5, R15; 20_memory.md R50): their lengths, and
the canonical form. -/

namespace Sys2Proof.Proofs.Invariant

open Sys2Proof.Machine Sys2Proof.Proofs.Effects Sys2Proof.Proofs.Reset Sys2Proof.Proofs.Transactions

/-! ### One block -/

/-- The second block is one that the first can become: of the same length, and canonical if the first is. -/
def BlockKept (m m' : Memory) : Prop := m'.length = m.length ∧ (m.wf = true → m'.wf = true)

theorem BlockKept.refl {m : Memory} : BlockKept m m := ⟨rfl, id⟩

theorem blockKept_of_set {m m' : Memory} {a : Nat} {v : Word} (h : m.set a v = .ok m') : BlockKept m m' :=
  ⟨Memory.set_length h, fun hm => (Memory.set_wf h hm).2⟩

theorem blockKept_of_setRange {m m' : Memory} {a : Nat} {vs : List Word} (h : m.setRange a vs = .ok m') :
    BlockKept m m' :=
  ⟨Memory.setRange_length h, fun hm => (Memory.setRange_wf h hm).2⟩

/-! ### Both blocks of a state -/

/-- Both memories keep their length and their canonical form. -/
def BlocksKept (s t : State) : Prop := BlockKept s.main t.main ∧ BlockKept s.stack t.stack

/-- A state whose memories are another state's keeps both. -/
theorem blocksKept_of_eq {s t : State} (hmain : t.main = s.main) (hstack : t.stack = s.stack) : BlocksKept s t := by
  rw [BlocksKept, hmain, hstack]
  exact ⟨.refl, .refl⟩

/-- The invariant is about the two memories only, so it is kept where they are. -/
theorem inv_of_blocksKept {s t : State} (h : BlocksKept s t) (hs : s.Inv) : t.Inv := by
  obtain ⟨⟨hmainLen, hmainWf⟩, hstackLen, hstackWf⟩ := h
  obtain ⟨hmain, hstack, hmainMax, hstackMax⟩ := hs
  exact ⟨hmainWf hmain, hstackWf hstack, hmainLen ▸ hmainMax, hstackLen ▸ hstackMax⟩

/-! ### The transactions -/

@[simp] theorem setBlock_main (s : State) (vs : List Word) : (s.setBlock vs).main = s.main :=
  State.setRegsFrom_main ..

@[simp] theorem setBlock_stack (s : State) (vs : List Word) : (s.setBlock vs).stack = s.stack :=
  State.setRegsFrom_stack ..

/-- An instruction's effect on the memories is at most one `set` or `set_range`. -/
theorem blocksKept_of_effect {i : Instr} {s t : State} (h : Effect s i t) : BlocksKept s t := by
  cases h with
  | store hset => exact ⟨blockKept_of_set hset, .refl⟩
  | push rd hroom hset => exact ⟨.refl, blockKept_of_set hset⟩
  | pusha hroom hset => exact ⟨.refl, blockKept_of_setRange hset⟩
  | popa => exact blocksKept_of_eq (setBlock_main ..) (setBlock_stack ..)
  | nothing | result | resultOvf | cmp | pc | pop => exact blocksKept_of_eq rfl rfl

/-- A next state comes from the executed word at PC or from the failed fetch, and PC is then incremented
(40_step_cycle.md R110 to R112, R115). -/
theorem step_next_cases {s t : State} (h : step s = .next t) :
    (s.pc.toNat < s.main.length ∧ ∃ u, exec (decode (s.main.cell s.pc.toNat)) s = .next u ∧ t = advance u) ∨
      (s.main.length ≤ s.pc.toNat ∧
        t = advance ((s.setPc 0xFFFF).setResult (.fault (.pointerOutOfRange s.main.length s.pc.toNat)))) := by
  obtain ⟨hin, hstep⟩ | ⟨hout, _⟩ := step_cases s
  · exact .inl ⟨hin, finish_next.1 (hstep.symm.trans h)⟩
  · exact .inr ⟨hout, Host.Outcome.next.inj (h.symm.trans (step_of_length_le_pc hout))⟩

/-- A step does to the memories what its instruction does. -/
theorem blocksKept_of_step {s t : State} (h : step s = .next t) : BlocksKept s t := by
  obtain ⟨_, u, hu, rfl⟩ | ⟨_, rfl⟩ := step_next_cases h
  · obtain ⟨f, _, rfl⟩ | ⟨v, hv, rfl⟩ := exec_next_cases hu
    · exact blocksKept_of_eq rfl rfl
    · have hkept : BlocksKept s v := blocksKept_of_effect hv
      exact hkept
  · exact blocksKept_of_eq rfl rfl

/-- Settles O10. -/
theorem everyStepKeepsTheInvariant : Obligations.EveryStepKeepsTheInvariant :=
  fun _ _ hs h => inv_of_blocksKept (blocksKept_of_step h) hs

/-- A host access does at most one `set` or `set_range`. -/
theorem blockKept_of_hostBlock {m m' : Memory} (h : HostBlock m m') : BlockKept m m' := by
  cases h with
  | kept => exact .refl
  | set hset => exact blockKept_of_set hset
  | setRange hset => exact blockKept_of_setRange hset

/-- No transaction but RESET puts another block in the place of a memory. -/
theorem blocksKept_of_perform {x : Transaction} {s t : State} {a : Answer} (hx : x.keepsCore = true)
    (h : perform x s = some (t, a)) : BlocksKept s t := by
  obtain ⟨m, pc, n, rfl⟩ | rfl | haccess := transaction_kinds x
  · cases hx
  · exact blocksKept_of_step (perform_step_iff.1 h).1
  · obtain ⟨m', b, hblock, hperform⟩ := perform_host_access haccess s.main
    cases (hperform s rfl).symm.trans h
    exact ⟨blockKept_of_hostBlock hblock, .refl⟩

/-- Settles O13. -/
theorem memoryLengthsAreFixedBetweenResets : Obligations.MemoryLengthsAreFixedBetweenResets := by
  intro x s t a hx h
  obtain ⟨⟨hmain, _⟩, hstack, _⟩ := blocksKept_of_perform hx h
  exact ⟨hmain, hstack⟩

/-! ### RESET and whole sequences -/

/-- A RESET with legal arguments meets the invariant; its stack memory lists nothing (10_state.md R44). -/
theorem inv_resetWith {m : Memory} (hm : m.wf = true) (hlen : m.length ≤ Config.maxMemLen) {n : Nat}
    (hn : n ≤ Config.maxStackLen) (pc : Word) : (State.resetWith m pc n).Inv :=
  ⟨hm, Memory.wf_empty n, hlen, hn⟩

/-- Settles O11: `State.reset` is the RESET with the largest memories. -/
theorem everyResetMeetsTheInvariant : Obligations.EveryResetMeetsTheInvariant :=
  ⟨fun _ pc _ hm hlen hn => inv_resetWith hm hlen hn pc,
    inv_resetWith (Memory.wf_empty _) le_rfl le_rfl Config.resetInitialPc⟩

/-- A legal transaction keeps the invariant: a RESET starts it anew, the others keep both memories. -/
theorem inv_of_perform {x : Transaction} {s t : State} {a : Answer} (hx : x.legal = true) (hs : s.Inv)
    (h : perform x s = some (t, a)) : t.Inv := by
  cases x with
  | reset m pc n =>
    cases h
    simp only [Transaction.legal, Bool.and_eq_true, decide_eq_true_eq] at hx
    obtain ⟨⟨hm, hlen⟩, hn⟩ := hx
    exact inv_resetWith hm hlen hn pc
  | step | read | write | readRange | writeRange => exact inv_of_blocksKept (blocksKept_of_perform rfl h) hs

/-- Settles O12: one transaction by `inv_of_perform`, a list of them by induction. -/
theorem everyTransactionKeepsTheInvariant : Obligations.EveryTransactionKeepsTheInvariant := by
  refine ⟨fun x s t a hx hs h => inv_of_perform hx hs h, fun xs => ?_⟩
  induction xs with
  | nil =>
    intro s t as _ hs h
    cases h
    exact hs
  | cons x xs ih =>
    intro s t as hlegal hs h
    obtain ⟨hx, hxs⟩ := List.forall_mem_cons.1 hlegal
    obtain ⟨u, a, bs, hu, ht, _⟩ := performAll_cons.1 h
    exact ih u t bs hxs (inv_of_perform hx hs hu) ht

end Sys2Proof.Proofs.Invariant

/-! PROOF. The frames of the instructions: which registers, flag bits and memory cells each leaves alone
(10_state.md R23, R31 to R33; 20_memory.md R57; 60_exceptions.md R226). -/

namespace Sys2Proof.Proofs.Frames

open Sys2Proof.Machine Sys2Proof.Proofs.Effects Sys2Proof.Proofs.Bitwise Sys2Proof.Proofs.Invariant

/-! ### Registers (10_state.md R33) -/

/-- A register after POPA's block write: the word of its slot for r0 to r12, its old value for the others. -/
theorem setBlock_reg (s : State) {vs : List Word} (h : vs.length = 13) (q : Reg) :
    (s.setBlock vs).reg q = (vs[q.toNat]?).getD (s.reg q) := by
  rw [State.setBlock, State.setRegsFrom_reg _ _ _ (by omega), if_pos (Nat.zero_le _), Nat.sub_zero]

/-- POPA's block write does not reach FLAGS, PC and SP. -/
theorem setBlock_reg_of_le (s : State) {vs : List Word} (h : vs.length = 13) {q : Reg} (hq : 13 ≤ q.toNat) :
    (s.setBlock vs).reg q = s.reg q := by
  rw [setBlock_reg s h, List.getElem?_eq_none (by omega), Option.getD_none]

/-- The registers outside POPA's row are FLAGS and PC. -/
theorem toNat_of_not_mem_popa_writes :
    ∀ r : Reg, r ∉ Instr.popa.writes → 13 ≤ r.toNat ∧ r ≠ spReg := by decide

/-- An effect writes no register outside the instruction's row of the access table. -/
theorem regsKeptBut_of_effect {i : Instr} {s t : State} (h : Effect s i t) : RegsKeptBut i.writes s t := by
  intro r hr
  cases h with
  | nothing | store => rfl
  | result v hwrites =>
    rw [hwrites] at hr
    exact regsKeptBut_setReg s _ v r hr
  | resultOvf v b hwrites =>
    rw [hwrites, List.mem_pair, not_or] at hr
    rw [State.setOvf_reg, if_neg hr.2, State.setReg_reg, if_neg hr.1]
  | cmp b hwrites =>
    rw [hwrites, List.mem_singleton] at hr
    rw [State.setCmp_reg, if_neg hr]
  | pc v hwrites =>
    rw [hwrites, List.mem_singleton] at hr
    rw [State.setPc_reg, if_neg hr]
  | push =>
    rw [Instr.writes, List.mem_singleton] at hr
    rw [State.setSp_reg, if_neg hr, State.setStack_reg]
  | pop =>
    rw [Instr.writes, List.mem_pair, not_or] at hr
    rw [State.setReg_reg, if_neg hr.2, State.setSp_reg, if_neg hr.1]
  | pusha =>
    rw [Instr.writes, List.mem_singleton] at hr
    rw [State.setSp_reg, if_neg hr, State.setStack_reg]
  | popa =>
    obtain ⟨hge, hsp⟩ := toNat_of_not_mem_popa_writes r hr
    rw [setBlock_reg_of_le _ (lookupCells_length ..) hge, State.setSp_reg, if_neg hsp]

/-- Settles O19: a fault writes nothing, and an effect stays within the instruction's row. -/
theorem instructionsWriteOnlyTheTabledRegisters : Obligations.InstructionsWriteOnlyTheTabledRegisters := by
  intro i s t h
  obtain ⟨f, _, rfl⟩ | ⟨u, hu, rfl⟩ := exec_next_cases h
  · exact fun _ _ => rfl
  · exact (regsKeptBut_of_effect hu :)

/-! ### Main memory (20_memory.md R57) -/

/-- Settles O18: of the effects only a store puts another block in main memory. -/
theorem onlySaveAndSaverStoreToMainMemory : Obligations.OnlySaveAndSaverStoreToMainMemory := by
  intro i s t hi h
  obtain ⟨f, _, rfl⟩ | ⟨u, hu, rfl⟩ := exec_next_cases h
  · exact fun _ => rfl
  · intro a
    cases hu with
    | store _ hstore => exact absurd hstore (by simp [hi])
    | popa => rw [State.setResult_main, setBlock_main, State.setSp_main]
    | nothing | result | resultOvf | cmp | pc | push | pop | pusha => rfl

/-! ### Flags (10_state.md R23, R24) -/

/-- What W12 promises of an instruction that does not name FLAGS: a flag bit changes only in the family that writes
it, and bits 15:2 never. -/
def FlagBitsKept (i : Instr) (before after : Word) : Prop :=
  (i.writesOvf = false → after.getLsbD 0 = before.getLsbD 0) ∧
    (i.writesCmp = false → after.getLsbD 1 = before.getLsbD 1) ∧
    ∀ j, 2 ≤ j → after.getLsbD j = before.getLsbD j

theorem flagBitsKept_of_eq {i : Instr} {v w : Word} (h : w = v) : FlagBitsKept i v w := by
  subst h
  exact ⟨fun _ => rfl, fun _ => rfl, fun _ _ => rfl⟩

/-- An effect of an instruction that names another destination touches FLAGS by its flag bit only. -/
theorem flagBitsKept_of_effect {i : Instr} {s t : State} (h : Effect s i t) (hdest : i.destination ≠ some flagsReg) :
    FlagBitsKept i (s.reg flagsReg) (t.reg flagsReg) := by
  have hrow : flagsReg ∉ i.writes → FlagBitsKept i (s.reg flagsReg) (t.reg flagsReg) :=
    fun hr => flagBitsKept_of_eq (regsKeptBut_of_effect h flagsReg hr)
  cases h with
  | nothing | store => exact flagBitsKept_of_eq rfl
  | resultOvf v b _ hrd hovf =>
    have hne : flagsReg ≠ _ := fun heq => hdest (heq ▸ hrd)
    have hbit : ∀ j, (((s.setReg _ v).setOvf b).reg flagsReg).getLsbD j =
        if j = 0 then b else (s.reg flagsReg).getLsbD j := fun j => by
      rw [State.setOvf_flagsBit, State.setReg_reg, if_neg hne]
    exact ⟨fun hno => absurd hovf (by simp [hno]), fun _ => hbit 1,
      fun j hj => (hbit j).trans (if_neg (by omega))⟩
  | cmp b _ hcmp =>
    have hbit := State.setCmp_flagsBit s b
    exact ⟨fun _ => hbit 0, fun hno => absurd hcmp (by simp [hno]),
      fun j hj => (hbit j).trans (if_neg (by omega))⟩
  | result v hwrites hrd =>
    refine hrow ?_
    rw [hwrites, List.mem_singleton]
    exact fun heq => hdest (heq ▸ hrd)
  | pc v hwrites =>
    refine hrow ?_
    rw [hwrites, List.mem_singleton]
    exact flagsReg_ne_pcReg
  | pop rd =>
    refine hrow ?_
    rw [Instr.writes, List.mem_pair, not_or]
    exact ⟨flagsReg_ne_spReg, fun heq => hdest (congrArg some heq.symm)⟩
  | push | pusha =>
    refine hrow ?_
    rw [Instr.writes, List.mem_singleton]
    exact flagsReg_ne_spReg
  | popa => exact hrow (by decide)

/-- Settles O20. -/
theorem flagsPersistAcrossOtherInstructions : Obligations.FlagsPersistAcrossOtherInstructions := by
  intro i s t h hdest
  obtain ⟨f, _, rfl⟩ | ⟨u, hu, rfl⟩ := exec_next_cases h
  · exact flagBitsKept_of_eq rfl
  · exact (flagBitsKept_of_effect hu hdest :)

/-! ### The memory an instruction does not reach (10_state.md R31, R32) -/

/-- An answer with its next state changed. -/
def mapNext (f : State → State) : Result → Result
  | .next s => .next (f s)
  | .fault r => .fault r
  | .refused r => .refused r

theorem loadInto_setStack (rd : Reg) (a : Word) (s : State) (m : Memory) :
    loadInto rd a (s.setStack m) = mapNext (·.setStack m) (loadInto rd a s) := by
  simp only [loadInto, State.setStack_main]
  split <;> rfl

theorem storeAt_setStack (a v : Word) (s : State) (m : Memory) :
    storeAt a v (s.setStack m) = mapNext (·.setStack m) (storeAt a v s) := by
  simp only [storeAt, State.setStack_main]
  split <;> rfl

theorem condHolds_eq_of_flags {s t : State} (h : t.reg flagsReg = s.reg flagsReg) (c : Nat) :
    t.condHolds c = s.condHolds c := by
  simp only [State.condHolds, State.cmp, State.ovf, State.flags, h]

theorem jumpTo_setStack (c : Nat) (target : Word) (s : State) (m : Memory) :
    jumpTo c target (s.setStack m) = mapNext (·.setStack m) (jumpTo c target s) := by
  simp only [jumpTo, condHolds_eq_of_flags (State.setStack_reg s m flagsReg)]
  split <;> rfl

/-- DIV by 0 raises before it writes (41_arithmetic.md R133). -/
theorem execDiv_of_zero (rd : Reg) {rs : Reg} {s : State} (h : s.reg rs = 0) :
    execDiv rd rs s = raise .divisionByZero s := if_pos h

/-- DIV by anything else writes the quotient and clears OVF (41_arithmetic.md R133). -/
theorem execDiv_of_ne_zero (rd : Reg) {rs : Reg} {s : State} (h : s.reg rs ≠ 0) :
    execDiv rd rs s = writeResultOvf rd (divWord (s.reg rd) (s.reg rs)) false s := if_neg h

theorem execDiv_setStack (rd rs : Reg) (s : State) (m : Memory) :
    execDiv rd rs (s.setStack m) = mapNext (·.setStack m) (execDiv rd rs s) := by
  by_cases h : s.reg rs = 0
  · rw [execDiv_of_zero rd h, execDiv_of_zero (s := s.setStack m) rd h]; rfl
  · rw [execDiv_of_ne_zero rd h, execDiv_of_ne_zero (s := s.setStack m) rd h]; rfl

/-- An instruction that does not use the stack memory runs alike whatever that memory is, and keeps it. -/
theorem exec_setStack {i : Instr} (hi : i.usesStack = false) (s : State) (m : Memory) :
    exec i (s.setStack m) = mapNext (·.setStack m) (exec i s) := by
  cases i with
  | push | pop | pusha | popa => cases hi
  | load rd rs => exact loadInto_setStack rd (s.reg rs) s m
  | loadr off => exact loadInto_setStack 0 (s.relAddr off) s m
  | save rd rs => exact storeAt_setStack (s.reg rd) (s.reg rs) s m
  | saver off => exact storeAt_setStack (s.relAddr off) (s.reg 0) s m
  | jump rd c => exact jumpTo_setStack c.toNat (s.reg rd - 1) s m
  | jumpr off c => exact jumpTo_setStack c.toNat (s.relAddr off) s m
  | div rd rs => exact execDiv_setStack rd rs s m
  | nop | move | add | sub | mul | cmpeq | cmpne | cmpgt | cmplt | lxor | lnot | int | invalid | shl | shr | not
  | xor | and | or | nor => rfl

/-- A stack instruction runs alike whatever main memory is, and keeps it. -/
theorem exec_setMain {i : Instr} (hi : i.usesStack = true) (s : State) (m : Memory) :
    exec i (s.setMain m) = mapNext (·.setMain m) (exec i s) := by
  have hsp : (s.setMain m).sp = s.sp := rfl
  cases i with
  | push rd =>
    simp only [exec, execPush, State.setMain_stack, State.setMain_reg, hsp]
    split <;> rfl
  | pop rd =>
    simp only [exec, execPop, State.setMain_stack, hsp]
    split
    · rfl
    · split <;> rfl
  | pusha =>
    have hblock : (s.setMain m).block = s.block := rfl
    simp only [exec, execPusha, State.setMain_stack, hsp, hblock]
    split <;> rfl
  | popa =>
    simp only [exec, execPopa, State.setMain_stack, hsp]
    split
    · rfl
    · split
      · exact congrArg complete (State.setRegsFrom_setMain (s.setSp (s.sp - 13)) m 0 _)
      · rfl
  | _ => cases hi

/-- An effect reaches the stack memory only by a stack instruction. -/
theorem stack_of_effect {i : Instr} {s t : State} (h : Effect s i t) (hi : i.usesStack = false) :
    t.stack = s.stack := by
  cases h with
  | push | pop | pusha | popa => cases hi
  | nothing | result | resultOvf | cmp | pc | store => rfl

/-- A stack instruction's effect does not reach main memory. -/
theorem main_of_effect {i : Instr} {s t : State} (h : Effect s i t) (hi : i.usesStack = true) :
    t.main = s.main := by
  cases h with
  | nothing hno | result _ _ _ hno | resultOvf _ _ _ _ _ hno | cmp _ _ _ hno | pc _ _ hno | store _ _ hno =>
    exact absurd hi (by simp [hno])
  | push | pop | pusha => rfl
  | popa => exact setBlock_main ..

/-- Settles O17. -/
theorem onlyStackInstructionsReachTheStackMemory : Obligations.OnlyStackInstructionsReachTheStackMemory := by
  refine fun i s t m h => ⟨fun hi => ⟨?_, by rw [exec_setStack hi, h]; rfl⟩,
    fun hi => ⟨?_, by rw [exec_setMain hi, h]; rfl⟩⟩
  · obtain ⟨f, _, rfl⟩ | ⟨u, hu, rfl⟩ := exec_next_cases h
    · rfl
    · exact (stack_of_effect hu hi :)
  · obtain ⟨f, _, rfl⟩ | ⟨u, hu, rfl⟩ := exec_next_cases h
    · rfl
    · exact (main_of_effect hu hi :)

/-! ### The returned value (60_exceptions.md R226) -/

theorem loadInto_setResult (rd : Reg) (a : Word) (s : State) (x : StepResult) :
    loadInto rd a (s.setResult x) = loadInto rd a s := by
  simp only [loadInto, State.setResult_main]
  split <;> rfl

theorem storeAt_setResult (a v : Word) (s : State) (x : StepResult) :
    storeAt a v (s.setResult x) = storeAt a v s := by
  simp only [storeAt, State.setResult_main]
  split <;> rfl

theorem jumpTo_setResult (c : Nat) (target : Word) (s : State) (x : StepResult) :
    jumpTo c target (s.setResult x) = jumpTo c target s := by
  simp only [jumpTo, condHolds_eq_of_flags (State.setResult_reg s x flagsReg)]
  split <;> rfl

/-- No instruction reads what the last step returned, and each ends by replacing it. -/
theorem exec_setResult (i : Instr) (s : State) (x : StepResult) : exec i (s.setResult x) = exec i s := by
  have hsp : (s.setResult x).sp = s.sp := rfl
  cases i with
  | load rd rs => exact loadInto_setResult rd (s.reg rs) s x
  | loadr off => exact loadInto_setResult 0 (s.relAddr off) s x
  | save rd rs => exact storeAt_setResult (s.reg rd) (s.reg rs) s x
  | saver off => exact storeAt_setResult (s.relAddr off) (s.reg 0) s x
  | jump rd c => exact jumpTo_setResult c.toNat (s.reg rd - 1) s x
  | jumpr off c => exact jumpTo_setResult c.toNat (s.relAddr off) s x
  | div rd rs =>
    by_cases h : s.reg rs = 0
    · exact (execDiv_of_zero (s := s.setResult x) rd h).trans (execDiv_of_zero rd h).symm
    · exact (execDiv_of_ne_zero (s := s.setResult x) rd h).trans (execDiv_of_ne_zero rd h).symm
  | push rd =>
    simp only [exec, execPush, State.setResult_stack, State.setResult_reg, hsp]
    split <;> rfl
  | pop rd =>
    simp only [exec, execPop, State.setResult_stack, hsp]
    split
    · rfl
    · split <;> rfl
  | pusha =>
    have hblock : (s.setResult x).block = s.block := rfl
    simp only [exec, execPusha, State.setResult_stack, hsp, hblock]
    split <;> rfl
  | popa =>
    simp only [exec, execPopa, State.setResult_stack, hsp]
    split
    · rfl
    · split
      · exact (congrArg complete (State.setRegsFrom_setResult (s.setSp (s.sp - 13)) x 0 _)).trans rfl
      · rfl
  | nop | move | add | sub | mul | cmpeq | cmpne | cmpgt | cmplt | lxor | lnot | int | invalid | shl | shr | not
  | xor | and | or | nor => rfl

/-- Settles O21: neither the fetch nor the instruction reads the field, and a failed fetch replaces it. -/
theorem stepIgnoresTheReturnedValue : Obligations.StepIgnoresTheReturnedValue := by
  intro s x
  have hfetch : fetch (s.setResult x) = fetch s := rfl
  simp only [step, hfetch, exec_setResult]
  split <;> rfl

end Sys2Proof.Proofs.Frames

/-! PROOF. Faults (60_exceptions.md): the table of R230 as what every instruction returns, and what a faulting step
leaves behind. -/

namespace Sys2Proof.Proofs.Faults

open Sys2Proof.Machine Sys2Proof.Proofs.Reset Sys2Proof.Proofs.Effects Sys2Proof.Proofs.StepCycle
  Sys2Proof.Proofs.Invariant Sys2Proof.Proofs.Frames

/-! ### Relative addresses (46_relative_data_movement.md R182) -/

/-- The machine's relative address is the exact sum modulo 65536. -/
theorem relAddr_toInt (s : State) (off : BitVec 8) :
    ((s.relAddr off).toNat : Int) = (((s.reg pcReg).toNat : Int) + off.toInt) % 65536 := by
  rw [State.relAddr, offsetWord, BitVec.signExtend, BitVec.toNat_add, BitVec.toNat_ofInt, State.pc]
  omega

/-- The machine's relative address is the statements' effective address. -/
theorem relAddr_toNat (s : State) (off : BitVec 8) : (s.relAddr off).toNat = effectiveAddress s off := by
  have h := relAddr_toInt s off
  rw [effectiveAddress]
  omega

/-! ### What each shape of meaning returns -/

theorem result_of_complete {x : Result} {s t : State} (hx : x = complete s) (h : x = .next t) : t.result = .ok := by
  rw [complete_next.1 (hx.symm.trans h), State.setResult_result]

theorem result_of_raise {x : Result} {s t : State} {f : Fault} (hx : x = raise f s) (h : x = .next t) :
    t.result = .fault f := by
  rw [raise_next.1 (hx.symm.trans h), State.setResult_result]

/-- A load returns the memory's error out of range, and Ok in range (45_data_movement.md R175). -/
theorem result_of_loadInto {rd : Reg} {a : Word} {s t : State} (h : loadInto rd a s = .next t) :
    t.result = rangeResult s a.toNat := by
  rw [rangeResult]
  obtain ⟨hin, hl⟩ | ⟨hout, hl⟩ := loadInto_cases rd a s
  · rw [if_neg (by omega)]; exact result_of_complete hl h
  · rw [if_pos hout]; exact result_of_raise hl h

/-- A store returns the memory's error out of range, and Ok in range (45_data_movement.md R175). -/
theorem result_of_storeAt {a v : Word} {s t : State} (h : storeAt a v s = .next t) :
    t.result = rangeResult s a.toNat := by
  rw [rangeResult]
  obtain ⟨hin, m, _, hs⟩ | ⟨hout, hs⟩ := storeAt_cases a v s
  · rw [if_neg (by omega)]; exact result_of_complete hs h
  · rw [if_pos hout]; exact result_of_raise hs h

/-- A code that names a condition is at most 3 (48_jumps.md R202). -/
theorem le_of_condHolds {s : State} {c : Nat} {b : Bool} (h : s.condHolds c = some b) : c ≤ 3 := by
  by_contra hc
  rw [(s.condHolds_none c).2 (by omega)] at h
  cases h

/-- A jump faults on a code above 3 only (60_exceptions.md R225). -/
theorem result_of_jumpTo {c : Nat} {target : Word} {s t : State} (h : jumpTo c target s = .next t) :
    t.result = conditionResult c := by
  rw [conditionResult]
  obtain ⟨hc, hj⟩ | ⟨hc, hj⟩ | ⟨hc, hj⟩ := jumpTo_cases c target s
  · have := le_of_condHolds hc
    rw [if_neg (by omega)]; exact result_of_complete hj h
  · have := le_of_condHolds hc
    rw [if_neg (by omega)]; exact result_of_complete hj h
  · rw [if_pos (by omega)]; exact result_of_raise hj h

/-- A word is the zero word exactly when it is 0 as a number. -/
theorem eq_zero_iff_toNat (w : Word) : w = 0 ↔ w.toNat = 0 := by
  rw [← BitVec.toNat_inj]; rfl

/-- Register 15 under the name the stack instructions use (00_scope.md R12). -/
theorem reg_spReg (s : State) : s.reg spReg = s.sp := rfl

/-- Every instruction returns what its row of the fault table says (60_exceptions.md R230). -/
theorem result_of_exec {i : Instr} {s t : State} (h : exec i s = .next t) : t.result = faultTable s i := by
  cases i with
  | load rd rs => exact result_of_loadInto (rd := rd) (a := s.reg rs) h
  | save rd rs => exact result_of_storeAt (a := s.reg rd) (v := s.reg rs) h
  | loadr off => exact (result_of_loadInto (rd := 0) (a := s.relAddr off) h).trans (by rw [relAddr_toNat]; rfl)
  | saver off =>
    exact (result_of_storeAt (a := s.relAddr off) (v := s.reg 0) h).trans (by rw [relAddr_toNat]; rfl)
  | jump rd c => exact result_of_jumpTo (c := c.toNat) (target := s.reg rd - 1) h
  | jumpr off c => exact result_of_jumpTo (c := c.toNat) (target := s.relAddr off) h
  | div rd rs =>
    rw [faultTable]
    obtain ⟨h0, hd⟩ | ⟨h0, hd⟩ := execDiv_cases rd rs s
    · rw [if_pos ((eq_zero_iff_toNat _).1 h0)]; exact result_of_raise hd h
    · rw [if_neg (mt (eq_zero_iff_toNat _).2 h0)]; exact result_of_complete hd h
  | push rd =>
    rw [faultTable, reg_spReg]
    obtain ⟨hroom, m, _, hp⟩ | ⟨hfull, hp⟩ := execPush_cases rd s
    · rw [if_neg (not_le.2 hroom)]; exact result_of_complete hp h
    · rw [if_pos hfull]; exact result_of_raise hp h
  | pusha =>
    rw [faultTable, reg_spReg]
    obtain ⟨hroom, m, _, hp⟩ | ⟨hfull, hp⟩ := execPusha_cases s
    · rw [if_neg (not_lt.2 hroom)]; exact result_of_complete hp h
    · rw [if_pos hfull]; exact result_of_raise hp h
  | pop rd =>
    rw [faultTable, reg_spReg]
    obtain ⟨h0, hp⟩ | ⟨h0, hin, hp⟩ | ⟨h0, hout, hp⟩ := execPop_cases rd s
    · rw [if_pos ((eq_zero_iff_toNat _).1 h0)]; exact result_of_raise hp h
    · have hpos := mt (eq_zero_iff_toNat _).2 h0
      rw [if_neg hpos, if_neg (by omega)]; exact result_of_complete hp h
    · have hpos := mt (eq_zero_iff_toNat _).2 h0
      rw [if_neg hpos, if_pos (by omega)]; exact result_of_raise hp h
  | popa =>
    rw [faultTable, reg_spReg]
    obtain ⟨h0, hp⟩ | ⟨h0, hin, hp⟩ | ⟨h0, hout, hp⟩ := execPopa_cases s
    · rw [if_pos h0]; exact result_of_raise hp h
    · rw [if_neg (not_lt.2 h0), if_neg (not_lt.2 hin)]; exact result_of_complete hp h
    · rw [if_neg (not_lt.2 h0), if_pos hout]; exact result_of_raise hp h
  | nop | move | add | sub | mul | cmpeq | cmpne | cmpgt | cmplt | lxor | lnot | int | invalid | shl | shr | not
  | xor | and | or | nor => exact result_of_complete rfl h

/-! ### What the table never says -/

/-- An access to one word has one fault. -/
theorem rangeResult_ne {f : Fault} (hf : ∀ l p, f ≠ .pointerOutOfRange l p) (s : State) (a : Nat) :
    rangeResult s a ≠ .fault f := by
  rw [rangeResult]
  split_ifs
  · exact fun h => hf _ _ (StepResult.fault.inj h).symm
  · exact fun h => by cases h

/-- A condition code has one fault. -/
theorem conditionResult_ne {f : Fault} (hf : ∀ c, f ≠ .invalidJumpCondition c) (c : Nat) :
    conditionResult c ≠ .fault f := by
  rw [conditionResult]
  split_ifs
  · exact fun h => hf _ (StepResult.fault.inj h).symm
  · exact fun h => by cases h

/-- No instruction returns the error of a range access (60_exceptions.md R222). -/
theorem faultTable_ne_rangeOverflow (s : State) (i : Instr) (l p e : Nat) :
    faultTable s i ≠ .fault (.pointerRangeOverflow l p e) := by
  cases i with
  | load | save | loadr | saver => exact rangeResult_ne (by simp) s _
  | jump | jumpr => exact conditionResult_ne (by simp) _
  | div | push | pusha | pop | popa => rw [faultTable]; split_ifs <;> simp
  | _ => exact fun h => by cases h

/-- Unreachable is for an SP beyond the stack memory (60_exceptions.md R227). -/
theorem length_lt_of_faultTable_unreachable {s : State} {i : Instr} (h : faultTable s i = .fault .unreachable) :
    s.stack.length < (s.reg spReg).toNat := by
  cases i with
  | load | save | loadr | saver => exact absurd h (rangeResult_ne (by simp) s _)
  | jump | jumpr => exact absurd h (conditionResult_ne (by simp) _)
  | div | push | pusha => rw [faultTable] at h; split_ifs at h; cases h
  | pop | popa =>
    rw [faultTable] at h
    split_ifs at h <;> cases h
    omega
  | _ => cases h

/-! ### The step -/

/-- A fetched word is the word of the cell at PC. -/
theorem get_pc_eq_ok {s : State} {w : Word} (h : s.main.get (s.reg pcReg).toNat = .ok w) :
    s.pc.toNat < s.main.length ∧ s.main.cell s.pc.toNat = w := by
  obtain ⟨hin, he⟩ | ⟨_, he⟩ := Memory.get_eq s.main (s.reg pcReg).toNat
  · exact ⟨hin, Except.ok.inj (he.symm.trans h)⟩
  · cases he.symm.trans h

/-- Settles O15: the two ways a step begins, and the fault table for the executed instruction. -/
theorem stepResultFollowsTheFaultTable : Obligations.StepResultFollowsTheFaultTable := by
  intro s t h
  obtain ⟨hin, u, hu, rfl⟩ | ⟨hout, rfl⟩ := step_next_cases h
  · have hres := result_of_exec hu
    refine ⟨fun hout => absurd hin (not_lt.2 hout), fun w hw => ?_, fun l p e => ?_⟩
    · rw [advance_result, hres, (get_pc_eq_ok hw).2]
    · rw [advance_result, hres]
      exact faultTable_ne_rangeOverflow s _ l p e
  · refine ⟨fun _ => rfl, fun w hw => absurd (get_pc_eq_ok hw).1 (not_lt.2 hout), fun l p e => ?_⟩
    rw [advance_result, State.setResult_result]
    simp

/-- PC after a failed fetch: the sentinel 0xFFFF, incremented (40_step_cycle.md R112). -/
theorem failedFetch_pc (s : State) (x : StepResult) :
    (advance ((s.setPc 0xFFFF).setResult x)).reg pcReg = 0 := by
  rw [advance_reg, if_pos rfl, State.setResult_reg, State.setPc_reg, if_pos rfl]
  rfl

/-- A failed fetch writes PC only. -/
theorem failedFetch_regs (s : State) (x : StepResult) :
    RegsKeptBut [pcReg] s (advance ((s.setPc 0xFFFF).setResult x)) := by
  intro r hr
  rw [regsKeptBut_advance _ r hr, State.setResult_reg, State.setPc_reg, if_neg (List.ne_of_not_mem_cons hr)]

/-- Settles O8. -/
theorem failedFetchFaultsAndRestartsAtZero : Obligations.FailedFetchFaultsAndRestartsAtZero :=
  fun s h => ⟨_, step_of_length_le_pc h, rfl, failedFetch_pc s _, failedFetch_regs s _, fun _ => rfl, fun _ => rfl⟩

/-- Settles O14: a fault was raised in the state before the step, or by its fetch. -/
theorem faultingStepChangesNothingButPc : Obligations.FaultingStepChangesNothingButPc := by
  intro s t f h hf
  obtain ⟨hin, u, hu, rfl⟩ | ⟨hout, rfl⟩ := step_next_cases h
  · obtain ⟨g, _, rfl⟩ | ⟨v, _, rfl⟩ := exec_next_cases hu
    · refine ⟨regsKeptBut_advance (s.setResult (.fault g)), fun _ => rfl, fun _ => rfl, ?_⟩
      rw [advance_reg, if_pos rfl, State.setResult_reg]
      exact (if_pos hin).symm
    · cases hf
  · exact ⟨failedFetch_regs s _, fun _ => rfl, fun _ => rfl,
      (failedFetch_pc s _).trans (if_neg (not_lt.2 hout)).symm⟩

/-! ### The stack pointer (10_state.md R30) -/

/-- SP counts no more words than the stack memory has. -/
def SpInStack (s : State) : Prop := (s.reg spReg).toNat ≤ s.stack.length

theorem spInStack_of_eq {s t : State} (hsp : t.reg spReg = s.reg spReg) (hstack : t.stack.length = s.stack.length)
    (h : SpInStack s) : SpInStack t := by
  rw [SpInStack, hsp, hstack]
  exact h

/-- The word of a raised SP, where the sum fits a word. -/
theorem toNat_add_of_fits {v k : Word} (h : v.toNat + k.toNat ≤ 65535) : (v + k).toNat = v.toNat + k.toNat :=
  BitVec.toNat_add_of_lt (by omega)

/-- The word of a lowered SP, where the difference is not negative. -/
theorem toNat_sub_of_fits {v k : Word} (h : k.toNat ≤ v.toNat) : (v - k).toNat = v.toNat - k.toNat :=
  BitVec.toNat_sub_of_le (BitVec.le_def.2 h)

/-- An effect keeps SP in the stack, if the instruction does not name r15 as its destination: a push needs the room
by which it raises SP, a pop lowers it. -/
theorem spInStack_of_effect {i : Instr} {s t : State} (h : Effect s i t) (hlen : s.stack.length ≤ 65535)
    (hs : SpInStack s) (hdest : i.destination ≠ some spReg) : SpInStack t := by
  have hkept : t.stack.length = s.stack.length := (blocksKept_of_effect h).2.1
  have hrow : spReg ∉ i.writes → SpInStack t :=
    fun hr => spInStack_of_eq (regsKeptBut_of_effect h spReg hr) hkept hs
  cases h with
  | nothing | store => exact hs
  | result v hwrites hrd =>
    refine hrow ?_
    rw [hwrites, List.mem_singleton]
    exact fun heq => hdest (heq ▸ hrd)
  | resultOvf v b hwrites hrd =>
    refine hrow ?_
    rw [hwrites, List.mem_pair, not_or]
    exact ⟨fun heq => hdest (heq ▸ hrd), spReg_ne_flagsReg⟩
  | cmp b hwrites =>
    refine hrow ?_
    rw [hwrites, List.mem_singleton]
    exact spReg_ne_flagsReg
  | pc v hwrites =>
    refine hrow ?_
    rw [hwrites, List.mem_singleton]
    exact spReg_ne_pcReg
  | push rd hroom =>
    have hsum : (s.sp + 1).toNat = s.sp.toNat + 1 := toNat_add_of_fits (by change s.sp.toNat + 1 ≤ 65535; omega)
    rw [SpInStack, hkept, State.setSp_reg, if_pos rfl, hsum]
    exact hroom
  | pusha hroom =>
    have hsum : (s.sp + 13).toNat = s.sp.toNat + 13 := toNat_add_of_fits (by change s.sp.toNat + 13 ≤ 65535; omega)
    rw [SpInStack, hkept, State.setSp_reg, if_pos rfl, hsum]
    exact hroom
  | pop rd hpos hin =>
    have hne : spReg ≠ rd := fun heq => hdest (congrArg some heq.symm)
    have h0 : s.sp.toNat ≠ 0 := fun h0 => hpos ((eq_zero_iff_toNat _).2 h0)
    have hdiff : (s.sp - 1).toNat = s.sp.toNat - 1 := toNat_sub_of_fits (by change 1 ≤ s.sp.toNat; omega)
    rw [SpInStack, hkept, State.setReg_reg, if_neg hne, State.setSp_reg, if_pos rfl, hdiff]
    omega
  | popa hcount hin =>
    have hdiff : (s.sp - 13).toNat = s.sp.toNat - 13 := toNat_sub_of_fits hcount
    rw [SpInStack, hkept, setBlock_reg_of_le _ (lookupCells_length ..) (by decide), State.setSp_reg, if_pos rfl, hdiff]
    omega

/-- Settles O16: the effect keeps SP in the stack, the increment of PC does not touch it, and with SP in the stack
the fault table has no Unreachable. -/
theorem stackPointerStaysInTheStack : Obligations.StackPointerStaysInTheStack := by
  intro s t hlen hsp hdest h
  obtain ⟨hin, u, hu, rfl⟩ | ⟨_, rfl⟩ := step_next_cases h
  · obtain ⟨_, hget⟩ | ⟨hout, _⟩ := Memory.get_eq s.main (s.reg pcReg).toNat
    · have hres := result_of_exec hu
      refine ⟨?_, fun hunr => ?_⟩
      · rw [advance_reg, if_neg spReg_ne_pcReg, advance_stack]
        obtain ⟨f, _, rfl⟩ | ⟨v, hv, rfl⟩ := exec_next_cases hu
        · exact hsp
        · exact (spInStack_of_effect hv hlen hsp (hdest _ hget) :)
      · exact absurd (length_lt_of_faultTable_unreachable (hres.symm.trans hunr)) (not_lt.2 hsp)
    · exact absurd hin (not_lt.2 hout)
  · refine ⟨?_, fun hunr => by cases hunr⟩
    rw [failedFetch_regs s _ spReg (by decide)]
    exact hsp

end Sys2Proof.Proofs.Faults

/-! PROOF. ADD, SUB, MUL, DIV, SHL, SHR (41_arithmetic.md, 42_shifts.md): one shape for all six, a result word and the
overflow bit, and the value of each. -/

namespace Sys2Proof.Proofs.Arithmetic

open Sys2Proof.Machine Sys2Proof.Proofs.Faults Sys2Proof.Proofs.Frames

/-! ### What each instruction writes -/

theorem exec_add (rd rs : Reg) (s : State) : exec (.add rd rs) s =
    writeResultOvf rd (addWord (s.reg rd) (s.reg rs)) (addOvf (s.reg rd) (s.reg rs)) s := rfl

theorem exec_sub (rd rs : Reg) (s : State) : exec (.sub rd rs) s =
    writeResultOvf rd (subWord (s.reg rd) (s.reg rs)) (subOvf (s.reg rd) (s.reg rs)) s := rfl

theorem exec_mul (rd rs : Reg) (s : State) : exec (.mul rd rs) s =
    writeResultOvf rd (mulWord (s.reg rd) (s.reg rs)) (mulOvf (s.reg rd) (s.reg rs)) s := rfl

theorem exec_div {rs : Reg} {s : State} (rd : Reg) (h : s.reg rs ≠ 0) : exec (.div rd rs) s =
    writeResultOvf rd (divWord (s.reg rd) (s.reg rs)) false s := execDiv_of_ne_zero rd h

theorem exec_shl (rd rs : Reg) (s : State) : exec (.shl rd rs) s =
    writeResultOvf rd (shlWord (s.reg rd) (s.reg rs)) (shiftOvf (s.reg rs)) s := rfl

theorem exec_shr (rd rs : Reg) (s : State) : exec (.shr rd rs) s =
    writeResultOvf rd (shrWord (s.reg rd) (s.reg rs)) (shiftOvf (s.reg rs)) s := rfl

/-! ### The result words over the integers -/

theorem addWord_eq (a b : Word) : addWord a b = BitVec.ofNat 16 (a.toNat + b.toNat) := rfl

theorem mulWord_eq (a b : Word) : mulWord a b = BitVec.ofNat 16 (a.toNat * b.toNat) := rfl

theorem divWord_eq (a b : Word) : divWord a b = BitVec.ofNat 16 (a.toNat / b.toNat) := rfl

theorem subWord_eq (a b : Word) : subWord a b = BitVec.ofNat 16 (((a.toNat : Int) - b.toNat) % 65536).toNat := by
  refine BitVec.eq_of_toNat_eq ?_
  rw [subWord, BitVec.toNat_ofInt, BitVec.toNat_ofNat]
  omega

/-- The distance of a shift is its amount modulo 16 (42_shifts.md R142). -/
theorem shiftDistance_eq (n : Word) : shiftDistance n = n.toNat % 16 := by
  rw [shiftDistance, BitVec.toNat_and]
  exact Nat.and_two_pow_sub_one_eq_mod n.toNat 4

theorem shlWord_eq (a n : Word) : shlWord a n = BitVec.ofNat 16 (a.toNat * 2 ^ (n.toNat % 16)) := by
  rw [shlWord, shiftDistance_eq]

theorem shrWord_eq (a n : Word) : shrWord a n = BitVec.ofNat 16 (a.toNat / 2 ^ (n.toNat % 16)) := by
  rw [shrWord, shiftDistance_eq]

/-- A borrow is a negative difference (41_arithmetic.md R131). -/
theorem subOvf_eq (a b : Word) : subOvf a b = decide (a.toNat < b.toNat) := by
  rw [subOvf, decide_eq_decide]
  omega

/-- A quotient of a word is a word. -/
theorem div_mod_word (a : Word) (n : Nat) : a.toNat / n % 65536 = a.toNat / n :=
  Nat.mod_eq_of_lt (lt_of_le_of_lt (Nat.div_le_self ..) a.isLt)

/-! ### The shape the six share -/

/-- The flags after a result and OVF, where the result goes to another register. -/
theorem onlyBit_setOvf (s : State) {rd : Reg} (hrd : rd ≠ flagsReg) (v : Word) (b : Bool) :
    OnlyBit 0 b (s.reg flagsReg) (((s.setReg rd v).setOvf b).reg flagsReg) := by
  have hbit := State.setOvf_flagsBit (s.setReg rd v) b
  rw [State.setReg_reg, if_neg hrd.symm] at hbit
  exact ⟨hbit 0, fun j hj => (hbit j).trans (if_neg hj)⟩

/-- A result and OVF written to another register than FLAGS. -/
theorem completes_with_ovf {i : Instr} {rd : Reg} {v : Word} {b : Bool} {s : State} {n : Nat}
    (hexec : exec i s = writeResultOvf rd v b s) (hrd : rd ≠ flagsReg) (hv : v.toNat = n) :
    CompletesWithResultAndOvf i s rd n b := by
  refine ⟨_, hexec.trans (complete_next.2 rfl), rfl, ?_, onlyBit_setOvf s hrd v b, fun r hr => ?_,
    fun _ => rfl, fun _ => rfl⟩
  · rw [State.setResult_reg, State.setOvf_reg, if_neg hrd, State.setReg_reg, if_pos rfl, hv]
  · rw [List.mem_pair, not_or] at hr
    rw [State.setResult_reg, State.setOvf_reg, if_neg hr.2, State.setReg_reg, if_neg hr.1]

/-- Settles O22. -/
theorem addWritesTheSumAndItsOverflow : Obligations.AddWritesTheSumAndItsOverflow :=
  fun rd rs s hrd => completes_with_ovf (exec_add rd rs s) hrd (by rw [addWord_eq, BitVec.toNat_ofNat])

/-- Settles O23. -/
theorem subWritesTheDifferenceAndItsBorrow : Obligations.SubWritesTheDifferenceAndItsBorrow := by
  intro rd rs s hrd
  rw [← subOvf_eq]
  exact completes_with_ovf (exec_sub rd rs s) hrd (BitVec.toNat_ofInt ..)

/-- Settles O24. -/
theorem mulWritesTheLowProductAndItsOverflow : Obligations.MulWritesTheLowProductAndItsOverflow :=
  fun rd rs s hrd => completes_with_ovf (exec_mul rd rs s) hrd (by rw [mulWord_eq, BitVec.toNat_ofNat])

/-- Settles O25. -/
theorem divWritesTheQuotientAndClearsOverflow : Obligations.DivWritesTheQuotientAndClearsOverflow :=
  fun rd rs s hrd hrs => completes_with_ovf (exec_div rd hrs) hrd <| by
    rw [divWord_eq, BitVec.toNat_ofNat]
    exact div_mod_word ..

/-- Settles O26. -/
theorem divByZeroRaisesDivisionByZero : Obligations.DivByZeroRaisesDivisionByZero :=
  fun rd _ _ => ⟨fun h => raises_of_raise (execDiv_of_zero rd h),
    fun h => ⟨_, (exec_div rd h).trans (complete_next.2 rfl), rfl⟩⟩

/-- Settles O28. -/
theorem shiftsMoveByTheAmountModulo16 : Obligations.ShiftsMoveByTheAmountModulo16 := by
  refine fun rd rs s hrd => ⟨completes_with_ovf (exec_shl rd rs s) hrd ?_,
    completes_with_ovf (exec_shr rd rs s) hrd ?_⟩
  · rw [shlWord_eq, BitVec.toNat_ofNat]
  · rw [shrWord_eq, BitVec.toNat_ofNat]
    exact div_mod_word ..

/-- A result and OVF both written to FLAGS: OVF, the later write, keeps its bit (40_step_cycle.md R118). -/
theorem completes_into_flags {i : Instr} {v : Word} {b : Bool} {s : State} {n : Nat}
    (hexec : exec i s = writeResultOvf flagsReg v b s) (hv : v = BitVec.ofNat 16 n) :
    ∃ t, exec i s = .next t ∧ t.result = .ok ∧ OnlyBit 0 b (BitVec.ofNat 16 n) (t.reg flagsReg) ∧
      RegsKeptBut [flagsReg] s t ∧ MainKept s t ∧ StackKept s t := by
  have hbit := State.setOvf_flagsBit (s.setReg flagsReg v) b
  rw [State.setReg_reg, if_pos rfl, hv] at hbit
  refine ⟨_, hexec.trans (complete_next.2 rfl), rfl, ?_, fun r hr => ?_, fun _ => rfl, fun _ => rfl⟩
  · rw [hv]
    exact ⟨hbit 0, fun j hj => (hbit j).trans (if_neg hj)⟩
  · rw [List.mem_singleton] at hr
    rw [State.setResult_reg, State.setOvf_reg, if_neg hr, State.setReg_reg, if_neg hr]

/-- Settles O27: `completes_into_flags` at the six results. -/
theorem arithmeticIntoFlagsEndsWithTheOverflowBit : Obligations.ArithmeticIntoFlagsEndsWithTheOverflowBit := by
  intro rs s a b ends
  refine ⟨?add, ?sub, ?mul, ?div, ?shl, ?shr⟩
  case add => exact completes_into_flags (exec_add flagsReg rs s) (addWord_eq ..)
  case sub =>
    rw [← subOvf_eq (s.reg flagsReg) (s.reg rs)]
    exact completes_into_flags (exec_sub flagsReg rs s) (subWord_eq ..)
  case mul => exact completes_into_flags (exec_mul flagsReg rs s) (mulWord_eq ..)
  case div => exact fun h => completes_into_flags (exec_div flagsReg h) (divWord_eq ..)
  case shl => exact completes_into_flags (exec_shl flagsReg rs s) (shlWord_eq ..)
  case shr => exact completes_into_flags (exec_shr flagsReg rs s) (shrWord_eq ..)

end Sys2Proof.Proofs.Arithmetic

/-! PROOF. The comparisons (44_compare.md): each writes its predicate to CMP and nothing else. -/

namespace Sys2Proof.Proofs.Compare

open Sys2Proof.Machine Sys2Proof.Proofs.Faults

/-- A predicate written to CMP. -/
theorem completes_with_cmp {i : Instr} {s : State} {b c : Bool} (hexec : exec i s = writeCmp b s) (hb : b = c) :
    CompletesWithCmp i s c := by
  subst hb
  have hbit := State.setCmp_flagsBit s b
  refine ⟨_, hexec.trans (complete_next.2 rfl), rfl, ⟨hbit 1, fun j hj => (hbit j).trans (if_neg hj)⟩,
    fun r hr => ?_, fun _ => rfl, fun _ => rfl⟩
  rw [List.mem_singleton] at hr
  rw [State.setResult_reg, State.setCmp_reg, if_neg hr]

/-- The truth value of a word, as a number. -/
theorem truthy_eq (a : Word) : truthy a = decide (a.toNat ≠ 0) :=
  decide_eq_decide.2 (not_congr (eq_zero_iff_toNat a))

/-- Exactly one of two words is non-zero (44_compare.md R164). -/
theorem lxorHolds_eq (a b : Word) :
    lxorHolds a b = decide ((a.toNat = 0 ∧ b.toNat ≠ 0) ∨ (a.toNat ≠ 0 ∧ b.toNat = 0)) := by
  rw [lxorHolds, truthy_eq, truthy_eq]
  by_cases ha : a.toNat = 0
  · by_cases hb : b.toNat = 0 <;> simp [ha, hb]
  · by_cases hb : b.toNat = 0 <;> simp [ha, hb]

theorem lnotHolds_eq (a : Word) : lnotHolds a = decide (a.toNat = 0) := by
  rw [lnotHolds, truthy_eq, ← decide_not, decide_eq_decide, not_not]

/-- Settles O30: equality of words is equality of their numbers. -/
theorem equalityComparisonsWriteOnlyCmp : Obligations.EqualityComparisonsWriteOnlyCmp :=
  fun rd rs _ => ⟨completes_with_cmp (i := .cmpeq rd rs) rfl (decide_eq_decide.2 BitVec.toNat_inj.symm),
    completes_with_cmp (i := .cmpne rd rs) rfl (decide_eq_decide.2 (not_congr BitVec.toNat_inj.symm))⟩

/-- Settles O31. -/
theorem orderComparisonsAreUnsigned : Obligations.OrderComparisonsAreUnsigned :=
  fun rd rs s => ⟨completes_with_cmp (i := .cmpgt rd rs) (b := gtHolds (s.reg rd) (s.reg rs)) rfl rfl,
    completes_with_cmp (i := .cmplt rd rs) (b := ltHolds (s.reg rd) (s.reg rs)) rfl rfl⟩

/-- Settles O32. -/
theorem logicalComparisonsTestForZero : Obligations.LogicalComparisonsTestForZero :=
  fun rd rs _ => ⟨completes_with_cmp (i := .lxor rd rs) rfl (lxorHolds_eq ..),
    completes_with_cmp (i := .lnot rd) rfl (lnotHolds_eq _)⟩

end Sys2Proof.Proofs.Compare

/-! PROOF. MOVE, LOAD, SAVE, LOADR, SAVER (45_data_movement.md, 46_relative_data_movement.md): one law for the loads and
one for the stores, at the address each form computes. -/

namespace Sys2Proof.Proofs.DataMovement

open Sys2Proof.Machine Sys2Proof.Proofs.Bitwise Sys2Proof.Proofs.StepCycle Sys2Proof.Proofs.Faults

/-! ### Loads and MOVE -/

/-- A result written to a register, whichever it is. -/
theorem completes_with_result {i : Instr} {rd : Reg} {v : Word} {s : State} (hexec : exec i s = writeResult rd v s) :
    CompletesWithResult i s rd v.toNat := by
  refine ⟨_, hexec.trans (writeResult_next.2 rfl), rfl, ?_, regsKeptBut_setReg s rd v, fun _ => rfl, fun _ => rfl⟩
  rw [State.setResult_reg, State.setReg_reg, if_pos rfl]

/-- Settles O33. -/
theorem moveCopiesTheSourceRegister : Obligations.MoveCopiesTheSourceRegister :=
  fun rd rs s => completes_with_result (i := .move rd rs) (v := s.reg rs) rfl

/-- What an instruction that loads from address `a` does (45_data_movement.md R171, R175). -/
def LoadsFrom (i : Instr) (s : State) (rd : Reg) (a : Nat) : Prop :=
  (∀ v, s.main.get a = .ok v → CompletesWithResult i s rd v.toNat) ∧
    (a < s.main.length → ∃ v, s.main.get a = .ok v) ∧
    (s.main.length ≤ a → Raises i s (.pointerOutOfRange s.main.length a))

theorem loadsFrom_of_loadInto {i : Instr} {s : State} {rd : Reg} {a : Word} (hexec : exec i s = loadInto rd a s) :
    LoadsFrom i s rd a.toNat := by
  obtain ⟨hin, hget⟩ | ⟨hout, hget⟩ := Memory.get_eq s.main a.toNat
  · refine ⟨fun v hv => ?_, fun _ => ⟨_, hget⟩, fun hout => absurd hin (not_lt.2 hout)⟩
    refine completes_with_result (hexec.trans ?_)
    rw [loadInto, hv]
    rfl
  · refine ⟨fun v hv => ?_, fun hin => absurd hin (not_lt.2 hout), fun _ => raises_of_raise (hexec.trans ?_)⟩
    · cases hget.symm.trans hv
    · rw [loadInto, hget]

/-- Settles O34: LOAD reads at the address in rs. -/
theorem loadReadsMainMemoryOrFaults : Obligations.LoadReadsMainMemoryOrFaults :=
  fun rd rs s => loadsFrom_of_loadInto (i := .load rd rs) (s := s) rfl

/-- Settles O36: LOADR reads at the effective address. -/
theorem loadrReadsAtPcPlusOffsetOrFaults : Obligations.LoadrReadsAtPcPlusOffsetOrFaults :=
  fun off s => relAddr_toNat s off ▸ loadsFrom_of_loadInto (i := .loadr off) (s := s) rfl

/-! ### Stores -/

/-- What an instruction that stores `v` at address `a` does (45_data_movement.md R172, R175). -/
def StoresAt (i : Instr) (s : State) (a : Nat) (v : Word) : Prop :=
  (a < s.main.length → ∃ t, exec i s = .next t ∧ t.result = .ok ∧ t.main.get a = .ok v ∧
    (∀ b : Nat, b ≠ a → t.main.get b = s.main.get b) ∧ RegsKeptBut [] s t ∧ StackKept s t) ∧
  (s.main.length ≤ a → Raises i s (.pointerOutOfRange s.main.length a))

/-- A store out of range raises the memory's error. -/
theorem raises_of_storeAt {i : Instr} {s : State} {a v : Word} (hexec : exec i s = storeAt a v s)
    (hout : s.main.length ≤ a.toNat) : Raises i s (.pointerOutOfRange s.main.length a.toNat) := by
  obtain ⟨hin, _⟩ | ⟨_, hs⟩ := storeAt_cases a v s
  · exact absurd hin (not_lt.2 hout)
  · exact raises_of_raise (hexec.trans hs)

theorem storesAt_of_storeAt {i : Instr} {s : State} {a v : Word} (hexec : exec i s = storeAt a v s)
    (hwf : s.main.wf = true) : StoresAt i s a.toNat v := by
  refine ⟨fun hin => ?_, raises_of_storeAt hexec⟩
  obtain ⟨_, m, hset, hs⟩ | ⟨hout, _⟩ := storeAt_cases a v s
  · have hcell := Memory.get_set hset hwf
    exact ⟨_, (hexec.trans hs).trans (complete_next.2 rfl), rfl, (hcell _).trans (if_pos rfl),
      fun b hb => (hcell b).trans (if_neg hb), fun _ _ => rfl, fun _ => rfl⟩
  · exact absurd hin (not_lt.2 hout)

/-- Settles O35: SAVE stores rs at the address in rd. -/
theorem saveWritesOneWordOrFaults : Obligations.SaveWritesOneWordOrFaults :=
  fun rd rs _ hwf => storesAt_of_storeAt (i := .save rd rs) rfl hwf

/-- Settles O37: SAVER stores r0 at the relative address, which is the effective address. -/
theorem saverWritesAtPcPlusOffsetOrFaults : Obligations.SaverWritesAtPcPlusOffsetOrFaults :=
  fun off s hwf => ⟨relAddr_toNat s off, storesAt_of_storeAt (i := .saver off) rfl hwf⟩

/-! ### The step around them -/

/-- On a successful fetch the step answers the instruction's state with PC incremented. -/
theorem step_of_exec {s t : State} {w : Word} (hget : s.main.get (s.reg pcReg).toNat = .ok w)
    (hexec : exec (decode w) s = .next t) : step s = .next (advance t) :=
  (step_of_fetch_ok hget).trans (finish_next.2 ⟨t, hexec, rfl⟩)

/-- The step of an instruction that changed nothing only adds 1 to PC, with the instruction's result. -/
theorem step_of_nothingChanged {s t : State} {w : Word} (hget : s.main.get (s.reg pcReg).toNat = .ok w)
    (hexec : exec (decode w) s = .next t) (hnothing : NothingChanged s t) :
    ∃ u, step s = .next u ∧ u.result = t.result ∧ u.reg pcReg = s.reg pcReg + 1 ∧
      RegsKeptBut [pcReg] s u ∧ MainKept s u ∧ StackKept s u := by
  obtain ⟨hregs, hmain, hstack⟩ := hnothing
  have hreg : ∀ r, t.reg r = s.reg r := fun r => hregs r List.not_mem_nil
  refine ⟨_, step_of_exec hget hexec, rfl, ?_, fun r hr => ?_, hmain, hstack⟩
  · rw [advance_reg, if_pos rfl, hreg]
  · rw [regsKeptBut_advance t r hr, hreg]

/-- The address after the instruction's own, modulo 65536. -/
theorem relAddr_one_toNat (s : State) : (s.relAddr 1).toNat = ((s.reg pcReg).toNat + 1) % 65536 := by
  have h := relAddr_toInt s 1
  have hone : (1 : BitVec 8).toInt = 1 := rfl
  rw [hone] at h
  omega

/-- Settles O38: SAVER +1 stores at the address that the step's increment puts in PC. -/
theorem storedWordIsTheNextInstruction : Obligations.StoredWordIsTheNextInstruction := by
  rintro s w ⟨hwf, _⟩ hget hdecode hin
  have hstores : StoresAt (.saver 1) s (s.relAddr 1).toNat (s.reg 0) := storesAt_of_storeAt rfl hwf
  obtain ⟨t, hexec, hres, hcell, _, hregs, _⟩ := hstores.1 (by rw [relAddr_one_toNat]; exact hin)
  refine ⟨_, step_of_exec hget (hdecode ▸ hexec), hres, ?_⟩
  rw [advance_pc_toNat, hregs pcReg List.not_mem_nil, ← relAddr_one_toNat]
  exact hcell

/-- Settles O39: each of the four raises in the state at its fetch, and a raise changes nothing. -/
theorem outOfRangeAccessIsSkippedWithItsError : Obligations.OutOfRangeAccessIsSkippedWithItsError := by
  intro s w a hget hout hinstr
  have hraises : Raises (decode w) s (.pointerOutOfRange s.main.length a) := by
    obtain ⟨rd, rs, hdecode, rfl⟩ | ⟨rd, rs, hdecode, rfl⟩ | ⟨off, hdecode | hdecode, rfl⟩ := hinstr <;>
      rw [hdecode]
    · exact (loadReadsMainMemoryOrFaults rd rs s).2.2 hout
    · exact raises_of_storeAt (i := .save rd rs) (v := s.reg rs) rfl hout
    · exact (loadrReadsAtPcPlusOffsetOrFaults off s).2.2 hout
    · rw [← relAddr_toNat] at hout ⊢
      exact raises_of_storeAt (i := .saver off) (v := s.reg 0) rfl hout
  obtain ⟨t, hexec, hres, hnothing⟩ := hraises
  obtain ⟨u, hstep, hu, hrest⟩ := step_of_nothingChanged hget hexec hnothing
  exact ⟨u, hstep, hu.trans hres, hrest⟩

end Sys2Proof.Proofs.DataMovement

/-! PROOF. NOP, INT, INVALID (49_nop_interrupt_invalid.md): each changes nothing, so the step only increments PC. -/

namespace Sys2Proof.Proofs.NoOps

open Sys2Proof.Machine Sys2Proof.Proofs.StepCycle Sys2Proof.Proofs.DataMovement

/-- An instruction that ends in the state it began with completes and changes nothing. -/
theorem completes_unchanged {i : Instr} {s : State} (hexec : exec i s = complete s) :
    ∃ t, exec i s = .next t ∧ t.result = .ok ∧ NothingChanged s t :=
  ⟨_, hexec.trans (complete_next.2 rfl), rfl, nothingChanged_setResult s _⟩

/-- Its step returns Ok and only adds 1 to PC. -/
theorem step_unchanged {s : State} {w : Word} (hget : s.main.get (s.reg pcReg).toNat = .ok w)
    (hexec : exec (decode w) s = complete s) :
    ∃ u, step s = .next u ∧ u.result = .ok ∧ u.reg pcReg = s.reg pcReg + 1 ∧
      RegsKeptBut [pcReg] s u ∧ MainKept s u ∧ StackKept s u := by
  obtain ⟨t, ht, hres, hnothing⟩ := completes_unchanged hexec
  obtain ⟨u, hstep, hu, hrest⟩ := step_of_nothingChanged hget ht hnothing
  exact ⟨u, hstep, hu.trans hres, hrest⟩

/-- Opcode 0 is the decoder's first row, whatever the other bits (30_encoding.md R88). -/
theorem decode_of_opcode_zero {w : Word} (h : w.toNat % 32 = 0) : decode w = .nop := by
  rw [← opcodeOf_toNat] at h
  rw [decode, h]
  rfl

/-- Settles O49. -/
theorem nopChangesNothingButPc : Obligations.NopChangesNothingButPc := by
  refine ⟨fun _ => decode_of_opcode_zero, rfl, fun _ => rfl, fun _ => completes_unchanged rfl,
    fun s w hget hw => ?_⟩
  have hexec : exec (decode w) s = complete s := by rw [decode_of_opcode_zero hw]; rfl
  obtain ⟨u, hstep, hres, hpc, hrest⟩ := step_unchanged hget hexec
  refine ⟨u, hstep, hres, ?_, hrest⟩
  rw [hpc, BitVec.toNat_add]
  rfl

/-- Settles O50. -/
theorem intAndInvalidChangeNothingButPc : Obligations.IntAndInvalidChangeNothingButPc := by
  intro s i hi
  have hexec : exec i s = complete s := by
    obtain ⟨_, rfl⟩ | ⟨_, rfl⟩ := hi
    · rfl
    · rfl
  exact ⟨completes_unchanged hexec, fun w hget hdecode => step_unchanged hget (hdecode ▸ hexec)⟩

end Sys2Proof.Proofs.NoOps

/-! PROOF. JUMP and JUMPR (48_jumps.md): one law for both, at the target each form computes. -/

namespace Sys2Proof.Proofs.Jumps

open Sys2Proof.Machine Sys2Proof.Proofs.Bitwise Sys2Proof.Proofs.StepCycle Sys2Proof.Proofs.Faults
  Sys2Proof.Proofs.DataMovement Sys2Proof.Proofs.NoOps

/-! ### Condition codes (48_jumps.md R202) -/

/-- The machine's condition is the statements' `Taken`, for a code that names one. -/
theorem condHolds_eq {s : State} {c : Nat} (hc : c ≤ 3) : s.condHolds c = some (decide (Taken s c)) := by
  interval_cases c <;> simp [State.condHolds, Taken, State.cmp, State.ovf, State.flags]

theorem jumpTo_taken {s : State} {c : Nat} (hc : c ≤ 3) (ht : Taken s c) (target : Word) :
    jumpTo c target s = complete (s.setPc target) := by
  rw [jumpTo, condHolds_eq hc, decide_eq_true ht]

theorem jumpTo_not_taken {s : State} {c : Nat} (hc : c ≤ 3) (ht : ¬ Taken s c) (target : Word) :
    jumpTo c target s = complete s := by
  rw [jumpTo, condHolds_eq hc, decide_eq_false ht]

theorem jumpTo_of_three_lt {s : State} {c : Nat} (hc : 3 < c) (target : Word) :
    jumpTo c target s = raise (.invalidJumpCondition c) s := by
  rw [jumpTo, (s.condHolds_none c).2 hc]

/-- A jump with a code that names a condition completes, and writes its target to PC exactly if it is taken. -/
theorem jump_completes {i : Instr} {s : State} {c : Nat} {target : Word} (hexec : exec i s = jumpTo c target s)
    (hc : c ≤ 3) : ∃ t, exec i s = .next t ∧ t.result = .ok ∧ (Taken s c → t.reg pcReg = target) ∧
      (¬ Taken s c → t.reg pcReg = s.reg pcReg) ∧ RegsKeptBut [pcReg] s t ∧ MainKept s t ∧ StackKept s t := by
  by_cases ht : Taken s c
  · rw [jumpTo_taken hc ht] at hexec
    refine ⟨_, hexec.trans (complete_next.2 rfl), rfl, fun _ => ?_, fun hno => absurd ht hno,
      regsKeptBut_setReg s pcReg target, fun _ => rfl, fun _ => rfl⟩
    rw [State.setResult_reg, State.setPc_reg, if_pos rfl]
  · rw [jumpTo_not_taken hc ht] at hexec
    exact ⟨_, hexec.trans (complete_next.2 rfl), rfl, fun hyes => absurd hyes ht, fun _ => rfl,
      fun _ _ => rfl, fun _ => rfl, fun _ => rfl⟩

/-- Settles O47. -/
theorem conditionCodesAbove3Fault : Obligations.ConditionCodesAbove3Fault := by
  intro s rd c off d
  have hjump : exec (.jump rd c) s = jumpTo c.toNat (s.reg rd - 1) s := rfl
  have hjumpr : exec (.jumpr off d) s = jumpTo d.toNat (s.relAddr off) s := rfl
  refine ⟨fun hc => raises_of_raise (hjump.trans (jumpTo_of_three_lt hc _)),
    fun hd => raises_of_raise (hjumpr.trans (jumpTo_of_three_lt hd _)), fun hc => ?_, fun hd => ?_⟩
  · obtain ⟨t, ht, hres, _⟩ := jump_completes hjump hc
    exact ⟨t, ht, hres⟩
  · obtain ⟨t, ht, hres, _⟩ := jump_completes hjumpr hd
    exact ⟨t, ht, hres⟩

/-! ### Landing addresses (48_jumps.md R200, R201, R203) -/

/-- What JUMP writes on the way: one below its register, modulo 65536. -/
theorem sub_one_toInt (v : Word) : ((v - 1).toNat : Int) = ((v.toNat : Int) - 1) % 65536 := by
  have hone : (1 : Word).toNat = 1 := rfl
  rw [BitVec.toNat_sub, hone]
  omega

/-- The step of a jump: the written PC or the old one, incremented. -/
theorem step_of_jump {s : State} {w : Word} {c : Nat} {target : Word}
    (hget : s.main.get (s.reg pcReg).toNat = .ok w) (hexec : exec (decode w) s = jumpTo c target s) (hc : c ≤ 3) :
    ∃ u, step s = .next u ∧ u.result = .ok ∧ (Taken s c → u.reg pcReg = target + 1) ∧
      (¬ Taken s c → (u.reg pcReg).toNat = ((s.reg pcReg).toNat + 1) % 65536) := by
  obtain ⟨t, ht, hres, htaken, hnot, _⟩ := jump_completes hexec hc
  refine ⟨_, step_of_exec hget ht, hres, fun h => ?_, fun h => ?_⟩
  · rw [advance_reg, if_pos rfl, htaken h]
  · rw [advance_pc_toNat, hnot h]

/-- Settles O48: `jump_completes` and `step_of_jump` at the targets of the two forms. -/
theorem jumpsCompleteAndLandWhereTheTableSays : Obligations.JumpsCompleteAndLandWhereTheTableSays := by
  refine ⟨fun s rd c hc => ⟨?jumpExec, fun w hget hdecode => ?jumpStep⟩,
    fun s off c hc => ⟨?jumprExec, fun w hget hdecode => ?jumprStep⟩⟩
  case jumpExec =>
    obtain ⟨t, ht, hres, htaken, hrest⟩ := jump_completes (i := .jump rd c) rfl hc
    exact ⟨t, ht, hres, fun h => by rw [htaken h, sub_one_toInt], hrest⟩
  case jumpStep =>
    obtain ⟨u, hu, hres, htaken, hnot⟩ := step_of_jump (c := c.toNat) hget (by rw [hdecode]; rfl) hc
    exact ⟨u, hu, hres, fun h => by rw [htaken h, BitVec.sub_add_cancel], hnot⟩
  case jumprExec =>
    obtain ⟨t, ht, hres, htaken, hrest⟩ := jump_completes (i := .jumpr off c) rfl hc
    exact ⟨t, ht, hres, fun h => by rw [htaken h, relAddr_toInt], hrest⟩
  case jumprStep =>
    obtain ⟨u, hu, hres, htaken, hnot⟩ :=
      step_of_jump (c := c.toNat) (target := s.relAddr off) hget (by rw [hdecode]; rfl) hc
    refine ⟨u, hu, hres, fun h => ?_, hnot⟩
    have hrel := relAddr_toInt s off
    have hone : (1 : Word).toNat = 1 := rfl
    rw [htaken h, BitVec.toNat_add, hone]
    omega

end Sys2Proof.Proofs.Jumps

/-! PROOF. PUSH, POP, PUSHA, POPA (47_stack.md): what each writes, when each faults, and the round trips. -/

namespace Sys2Proof.Proofs.Stack

open Sys2Proof.Machine Sys2Proof.Proofs.Effects Sys2Proof.Proofs.Transactions Sys2Proof.Proofs.Invariant
  Sys2Proof.Proofs.Frames Sys2Proof.Proofs.Faults Sys2Proof.Proofs.StepCycle Sys2Proof.Proofs.DataMovement

/-! ### Single words -/

/-- PUSH with room on the stack, the state it answers written out. -/
theorem exec_push {rd : Reg} {s : State} (hroom : (s.reg spReg).toNat < s.stack.length) :
    ∃ m, s.stack.set (s.reg spReg).toNat (s.reg rd) = .ok m ∧
      exec (.push rd) s = .next (((s.setStack m).setSp (s.reg spReg + 1)).setResult .ok) := by
  obtain ⟨_, m, hset, h⟩ | ⟨hfull, _⟩ := execPush_cases rd s
  · exact ⟨m, hset, h.trans (complete_next.2 rfl)⟩
  · exact absurd hroom (not_lt.2 hfull)

/-- POP of a word that is there, the state it answers written out. -/
theorem exec_pop {rd : Reg} {s : State} {v : Word} (hpos : 0 < (s.reg spReg).toNat)
    (hv : s.stack.get ((s.reg spReg).toNat - 1) = .ok v) :
    exec (.pop rd) s = .next (((s.setSp (s.reg spReg - 1)).setReg rd v).setResult .ok) := by
  have h0 : s.sp ≠ 0 := mt (eq_zero_iff_toNat _).1 hpos.ne'
  have hexec : exec (.pop rd) s = complete ((s.setSp (s.sp - 1)).setReg rd v) := by
    change execPop rd s = _
    rw [execPop, if_neg h0, show s.stack.get (s.sp.toNat - 1) = .ok v from hv]
  exact hexec.trans (complete_next.2 rfl)

/-- Settles O40. -/
theorem pushStoresAtSpAndRaisesSp : Obligations.PushStoresAtSpAndRaisesSp := by
  rintro rd s ⟨_, hwf, _, hmax⟩ hroom
  obtain ⟨m, hset, hexec⟩ := exec_push (rd := rd) hroom
  have hcell := Memory.get_set hset hwf
  have hsum : (s.reg spReg + 1).toNat = (s.reg spReg).toNat + 1 :=
    toNat_add_of_fits (le_trans hroom hmax)
  refine ⟨_, hexec, rfl, ?_, (hcell _).trans (if_pos rfl), fun a ha => (hcell a).trans (if_neg ha),
    fun r hr => ?_, fun _ => rfl⟩
  · rw [State.setResult_reg, State.setSp_reg, if_pos rfl, hsum]
  · rw [State.setResult_reg, State.setSp_reg, if_neg (List.ne_of_not_mem_cons hr), State.setStack_reg]

/-- Settles O41: SP is lowered first, so the popped word stays in rd even if rd is SP. -/
theorem popLowersSpAndReadsTheSlot : Obligations.PopLowersSpAndReadsTheSlot := by
  intro rd s hpos hin
  obtain ⟨_, hget⟩ | ⟨hout, _⟩ := Memory.get_eq s.stack ((s.reg spReg).toNat - 1)
  · have hdiff : (s.reg spReg - 1).toNat = (s.reg spReg).toNat - 1 := toNat_sub_of_fits hpos
    refine ⟨_, _, hget, exec_pop hpos hget, rfl, ?_, fun hrd => ?_, fun r hr => ?_, fun _ => rfl, fun _ => rfl⟩
    · rw [State.setResult_reg, State.setReg_reg, if_pos rfl]
    · rw [State.setResult_reg, State.setReg_reg, if_neg hrd.symm, State.setSp_reg, if_pos rfl, hdiff]
    · rw [List.mem_pair, not_or] at hr
      rw [State.setResult_reg, State.setReg_reg, if_neg hr.1, State.setSp_reg, if_neg hr.2]
  · omega

/-! ### Blocks of 13 registers -/

/-- The word of the block in position `i` is register `i` (47_stack.md R198). -/
theorem block_getElem? (s : State) {i : Nat} (hi : i < 13) : s.block[i]? = some (s.reg (BitVec.ofNat 4 i)) := by
  have h := State.regsFrom_getElem? s 0 13 i
  rw [if_pos hi, Nat.zero_add] at h
  exact h

/-- Settles O42: the block of registers is written by one range write. -/
theorem pushaStoresTheThirteenRegisters : Obligations.PushaStoresTheThirteenRegisters := by
  rintro s ⟨_, hwf, _, hmax⟩ hroom
  obtain ⟨_, m, hset, h⟩ | ⟨hfull, _⟩ := execPusha_cases s
  · have hsum : (s.reg spReg + 13).toNat = (s.reg spReg).toNat + 13 :=
      toNat_add_of_fits (le_trans hroom hmax)
    refine ⟨_, h.trans (complete_next.2 rfl), rfl, ?_, fun i hi => ?_, fun a ha => ?_, fun r hr => ?_,
      fun _ => rfl⟩
    · rw [State.setResult_reg, State.setSp_reg, if_pos rfl]
      exact hsum
    · exact get_setRange_inside hset hwf (block_getElem? s hi)
    · exact get_setRange_outside hset hwf (by rw [State.block_length]; exact ha)
    · rw [State.setResult_reg, State.setSp_reg, if_neg (List.ne_of_not_mem_cons hr), State.setStack_reg]
  · exact absurd hroom (not_le.2 hfull)

/-- POPA of 13 words that are there, the state it answers written out with the words of its window. -/
theorem exec_popa {s : State} (hcount : 13 ≤ (s.reg spReg).toNat) (hin : (s.reg spReg).toNat ≤ s.stack.length) :
    ∃ vs : List Word, vs.length = 13 ∧
      (∀ i, i < 13 → ∃ x, vs[i]? = some x ∧ s.stack.get ((s.reg spReg).toNat - 13 + i) = .ok x) ∧
      exec .popa s = .next (((s.setSp (s.reg spReg - 13)).setBlock vs).setResult .ok) := by
  obtain ⟨hlow, _⟩ | ⟨_, _, h⟩ | ⟨_, hout, _⟩ := execPopa_cases s
  · exact absurd hcount (not_le.2 hlow)
  · exact ⟨_, lookupCells_length .., fun i hi => lookupCells_get ((Nat.sub_add_cancel hcount).trans_le hin) hi,
      h.trans (complete_next.2 rfl)⟩
  · exact absurd hin (not_le.2 hout)

/-- Settles O43: the window is read by one range read, and its word `i` is written to register `i`. -/
theorem popaLoadsTheThirteenRegisters : Obligations.PopaLoadsTheThirteenRegisters := by
  intro s hcount hin
  obtain ⟨vs, hlen, hwords, hexec⟩ := exec_popa hcount hin
  have hdiff : (s.reg spReg - 13).toNat = (s.reg spReg).toNat - 13 := toNat_sub_of_fits hcount
  have hhigh : ∀ r : Reg, 13 ≤ r.toNat →
      (((s.setSp (s.reg spReg - 13)).setBlock vs).setResult .ok).reg r = (s.setSp (s.reg spReg - 13)).reg r :=
    fun r hr => setBlock_reg_of_le _ hlen hr
  refine ⟨_, hexec, rfl, ?_, fun i hi => ?_, ?_, ?_, fun a => ?_, fun a => ?_⟩
  · rw [hhigh spReg (by decide), State.setSp_reg, if_pos rfl, hdiff]
  · obtain ⟨x, hx, hget⟩ := hwords i hi
    have hi16 : (BitVec.ofNat 4 i).toNat = i := Nat.mod_eq_of_lt (by omega)
    rw [State.setResult_reg, setBlock_reg _ hlen, hi16, hx]
    exact hget
  · rw [hhigh flagsReg (by decide), State.setSp_reg, if_neg flagsReg_ne_spReg]
  · rw [hhigh pcReg (by decide), State.setSp_reg, if_neg pcReg_ne_spReg]
  · rw [State.setResult_main, setBlock_main, State.setSp_main]
  · rw [State.setResult_stack, setBlock_stack, State.setSp_stack]

/-! ### Faults (47_stack.md R190 to R195) -/

/-- An instruction whose row of the fault table gives a fault raises it. -/
theorem raises_of_faultTable {i : Instr} {s : State} {f : Fault} (h : faultTable s i = .fault f) : Raises i s f := by
  obtain ⟨t, ht⟩ | ⟨g, hg⟩ := exec_ends i s
  · have hres := result_of_exec (ht.trans (complete_next.2 rfl))
    cases hres.trans h
  · have hres := result_of_exec (hg.trans (raise_next.2 rfl))
    cases hres.trans h
    exact raises_of_raise hg

/-- Settles O44: the rows of the four instructions in the fault table. -/
theorem stackFaultsByTheirExactConditions : Obligations.StackFaultsByTheirExactConditions := by
  intro rd s sp
  refine ⟨fun hfull => raises_of_faultTable ?_, fun hfull => raises_of_faultTable ?_,
    fun hempty => raises_of_faultTable ?_, fun hpos hout => raises_of_faultTable ?_,
    fun hlow => raises_of_faultTable ?_, fun hcount hout => raises_of_faultTable ?_⟩
  · exact if_pos hfull
  · exact if_pos hfull
  · exact if_pos hempty
  · exact (if_neg hpos.ne').trans (if_pos (Nat.le_sub_one_of_lt hout))
  · exact if_pos hlow
  · exact (if_neg (not_lt.2 hcount)).trans (if_pos hout)

/-! ### Round trips -/

/-- The step of a PUSH that fits: the slot at the old SP holds rd, PC and SP are one higher. -/
theorem step_push {s : State} {rd : Reg} {w : Word} (hs : s.Inv) (hroom : (s.reg spReg).toNat < s.stack.length)
    (hget : s.main.get (s.reg pcReg).toNat = .ok w) (hdecode : decode w = .push rd) :
    ∃ t, step s = .next t ∧ t.result = .ok ∧ t.main = s.main ∧ t.reg pcReg = s.reg pcReg + 1 ∧
      t.reg spReg = s.reg spReg + 1 ∧ (∀ r, r ≠ pcReg → r ≠ spReg → t.reg r = s.reg r) ∧
      t.stack.get (s.reg spReg).toNat = .ok (s.reg rd) := by
  obtain ⟨_, hwf, _, _⟩ := hs
  obtain ⟨m, hset, hexec⟩ := exec_push (rd := rd) hroom
  rw [← hdecode] at hexec
  refine ⟨_, step_of_exec hget hexec, rfl, rfl, ?_, ?_, fun r hpc hsp => ?_,
    (Memory.get_set hset hwf _).trans (if_pos rfl)⟩
  · rw [advance_reg, if_pos rfl, State.setResult_reg, State.setSp_reg, if_neg pcReg_ne_spReg, State.setStack_reg]
  · rw [advance_reg, if_neg spReg_ne_pcReg, State.setResult_reg, State.setSp_reg, if_pos rfl]
  · rw [advance_reg, if_neg hpc, State.setResult_reg, State.setSp_reg, if_neg hsp, State.setStack_reg]

/-- Settles O45: PUSH leaves rd's value in the slot that POP reads, and SP where POP finds it. -/
theorem pushThenPopRestoresRegisterAndSp : Obligations.PushThenPopRestoresRegisterAndSp := by
  intro s rd w v hs hroom hgetPush hpush hgetPop hpop
  obtain ⟨t, hstep, hok, hmain, hpc, hsp, hother, hslot⟩ := step_push hs hroom hgetPush hpush
  have hsum : (t.reg spReg).toNat = (s.reg spReg).toNat + 1 := by
    rw [hsp]
    exact toNat_add_of_fits (le_trans hroom hs.2.2.2)
  have hexec := exec_pop (rd := rd) (s := t) (v := s.reg rd) (by omega) (by rw [hsum]; exact hslot)
  have hget : t.main.get (t.reg pcReg).toNat = .ok v := by rw [hmain, hpc]; exact hgetPop
  refine ⟨t, _, hstep, step_of_exec hget (hpop ▸ hexec), hok, rfl, fun r hr => ?_, fun a => ?_, ?_⟩
  · have hr' : r ≠ pcReg := List.ne_of_not_mem_cons hr
    rw [regsKeptBut_advance _ r hr, State.setResult_reg, State.setReg_reg, State.setSp_reg, hsp,
      BitVec.add_sub_cancel]
    split_ifs with hrd hrsp
    · rw [hrd]
    · rw [hrsp]
    · exact hother r hr' hrsp
  · rw [advance_main, State.setResult_main, State.setReg_main, State.setSp_main, hmain]
  · rw [advance_reg, if_pos rfl, State.setResult_reg, State.setReg_reg, State.setSp_reg, if_neg pcReg_ne_spReg, hpc]
    by_cases hrd : rd = pcReg
    · rw [if_pos hrd, if_pos hrd.symm, hrd]
    · rw [if_neg hrd, if_neg (Ne.symm hrd), BitVec.add_assoc]
      rfl

/-- Settles O46: PUSHA's 13 slots are the window that POPA reads from the raised SP. -/
theorem popaRestoresWhatPushaSaved : Obligations.PopaRestoresWhatPushaSaved := by
  intro s t u hs hroom hpusha hstack hsp
  obtain ⟨t', ht', _, hspPush, hslots, _⟩ := pushaStoresTheThirteenRegisters s hs hroom
  cases ht'.symm.trans hpusha
  have hlen : t.stack.length = s.stack.length := by
    obtain ⟨f, _, rfl⟩ | ⟨x, hx, rfl⟩ := exec_next_cases hpusha
    · rfl
    · exact (blocksKept_of_effect hx).2.1
  obtain ⟨v, hv, hres, hspPop, hloaded, _⟩ := popaLoadsTheThirteenRegisters u
    (by rw [hsp, hspPush]; omega) (by rw [hsp, hspPush, hstack, hlen]; exact hroom)
  rw [hsp, hspPush, Nat.add_sub_cancel] at hspPop hloaded
  rw [hstack] at hloaded
  refine ⟨v, hv, hres, BitVec.eq_of_toNat_eq hspPop, fun r hr => ?_⟩
  have hsame := (hloaded r.toNat hr).symm.trans (hslots r.toNat hr)
  rw [BitVec.ofNat_toNat, BitVec.setWidth_eq] at hsame
  exact Except.ok.inj hsame

end Sys2Proof.Proofs.Stack

/-! PROOF. RESET's zeros (10_state.md R41, R42, R44). -/

namespace Sys2Proof.Proofs.ResetValues

open Sys2Proof.Machine

/-- A block that lists nothing reads as zeros. -/
theorem get_empty {n a : Nat} (h : a < n) : (Memory.mk n []).get a = .ok 0 := if_pos h

/-- Settles O55. -/
theorem resetClearsRegistersFlagsSpAndStack : Obligations.ResetClearsRegistersFlagsSpAndStack :=
  fun m pc n => ⟨fun r hr => (State.resetWith_reg m pc n r).trans (if_neg hr), rfl, fun _ => get_empty⟩

end Sys2Proof.Proofs.ResetValues

/-! PROOF. Runs (70_reset_and_hazards.md R266): which STEPs a run issues, by induction on its limit. -/

namespace Sys2Proof.Proofs.Runs

open Sys2Proof.Machine Sys2Proof.Proofs.Transactions

/-- What a run continued after the answers `pre` leaves, `as` being the answers of its own STEPs: they are the STEPs
of `s` one after another, the condition held before none of them, and the run stopped where it holds or at the limit. -/
structure Follows (ends : EndOfRun) (limit : Nat) (pre : List Answer) (s : State) (as : List Answer) (r : Run) :
    Prop where
  answers : r.answers = pre ++ as
  steps : performAll (List.replicate as.length .step) s = some (r.state, as)
  le_limit : as.length ≤ limit
  not_before : ∀ (k : Nat) (t : State) (bs : List Answer), k < as.length →
    performAll (List.replicate k .step) s = some (t, bs) → ends (pre ++ bs) t.main = false
  ended : r.ended = ends r.answers r.state.main
  at_limit : r.ended = false → as.length = limit

/-- A run whose condition holds at once issues no STEP. -/
theorem follows_nil {ends : EndOfRun} {limit : Nat} {pre : List Answer} {s : State} {b : Bool}
    (hb : b = ends pre s.main) (hlimit : b = false → limit = 0) : Follows ends limit pre s [] ⟨s, pre, b⟩ where
  answers := (List.append_nil pre).symm
  steps := rfl
  le_limit := Nat.zero_le _
  not_before := fun _ _ _ hk => absurd hk (Nat.not_lt_zero _)
  ended := hb
  at_limit := fun h => (hlimit h).symm

/-- A run whose condition does not hold at once issues a STEP and goes on. -/
theorem follows_cons {ends : EndOfRun} {limit : Nat} {pre as : List Answer} {s t : State} {r : Run}
    (hno : ends pre s.main = false) (ht : step s = .next t)
    (h : Follows ends limit (pre ++ [stepAnswer t.result]) t as r) :
    Follows ends (limit + 1) pre s (stepAnswer t.result :: as) r where
  answers := by rw [h.answers, List.append_assoc, List.singleton_append]
  steps := performAll_cons.2 ⟨t, _, as, perform_step ht, h.steps, rfl⟩
  le_limit := Nat.succ_le_succ h.le_limit
  not_before := by
    intro k u bs hk hperform
    cases k with
    | zero =>
      cases hperform
      rw [List.append_nil]
      exact hno
    | succ k =>
      obtain ⟨t', a, cs, hfirst, hrest, rfl⟩ := performAll_cons.1 hperform
      cases (perform_step ht).symm.trans hfirst
      rw [← List.singleton_append, ← List.append_assoc]
      exact h.not_before k u cs (Nat.lt_of_succ_lt_succ hk) hrest
  ended := h.ended
  at_limit := fun hended => congrArg Nat.succ (h.at_limit hended)

/-- Every run, from any answers on, is one that `Follows` describes. -/
theorem exists_follows (ends : EndOfRun) (limit : Nat) (pre : List Answer) (s : State) :
    ∃ r as, runFrom ends limit pre s = some r ∧ Follows ends limit pre s as r := by
  induction limit generalizing pre s with
  | zero => exact ⟨_, [], runFrom_zero .., follows_nil rfl fun _ => rfl⟩
  | succ limit ih =>
    cases hends : ends pre s.main with
    | true => exact ⟨_, [], runFrom_ended hends _, follows_nil hends.symm fun h => by cases h⟩
    | false =>
      obtain ⟨t, ht⟩ := exists_step_next s
      obtain ⟨r, as, hr, hfollows⟩ := ih (pre ++ [stepAnswer t.result]) t
      exact ⟨r, _, (runFrom_step hends ht limit).trans hr, follows_cons hends ht hfollows⟩

/-- A run from a state: the case of `exists_follows` with no answers yet. -/
theorem exists_run (ends : EndOfRun) (limit : Nat) (s : State) :
    ∃ r, run ends limit s = some r ∧ Follows ends limit [] s r.answers r := by
  obtain ⟨r, as, hr, hfollows⟩ := exists_follows ends limit [] s
  have has : r.answers = as := hfollows.answers
  exact ⟨r, hr, has ▸ hfollows⟩

/-- Settles O56. -/
theorem runIssuesStepsUntilItsConditionHolds : Obligations.RunIssuesStepsUntilItsConditionHolds := by
  intro ends limit s
  obtain ⟨r, hr, h⟩ := exists_run ends limit s
  exact ⟨r, hr, h.steps, h.le_limit, h.not_before, h.ended, h.at_limit, exists_step_next r.state⟩

/-- Any number of STEPs can be issued. -/
theorem exists_performAll_steps (n : Nat) (s : State) :
    ∃ t as, performAll (List.replicate n .step) s = some (t, as) ∧ as.length = n := by
  induction n generalizing s with
  | zero => exact ⟨s, [], rfl, rfl⟩
  | succ n ih =>
    obtain ⟨t, ht⟩ := exists_step_next s
    obtain ⟨u, as, hu, hlen⟩ := ih t
    exact ⟨u, _, performAll_cons.2 ⟨t, _, as, perform_step ht, hu, rfl⟩, congrArg Nat.succ hlen⟩

/-- A run with the condition (a) issues at most `n` STEPs: before one more the condition holds. -/
theorem length_le_of_follows_endAfter {n limit : Nat} {s : State} {as : List Answer} {r : Run}
    (h : Follows (endAfter n) limit [] s as r) : as.length ≤ n := by
  by_contra hlt
  obtain ⟨t, bs, hsteps, hlen⟩ := exists_performAll_steps n s
  have hno := h.not_before n t bs (by omega) hsteps
  rw [endAfter_eq, List.nil_append, hlen, decide_eq_false_iff_not] at hno
  exact hno le_rfl

/-- Settles O57: no fewer than `n` STEPs, as the run ends only there or at its limit, and no more. -/
theorem runOfAFixedNumberOfStepsIssuesExactlyThatMany : Obligations.RunOfAFixedNumberOfStepsIssuesExactlyThatMany := by
  intro n limit s hn
  obtain ⟨⟨t, as, ended⟩, hr, h⟩ := exists_run (endAfter n) limit s
  have hle : as.length ≤ n := length_le_of_follows_endAfter h
  have hended : ended = decide (n ≤ as.length) := h.ended
  have htrue : ended = true := by
    by_contra hfalse
    have hlimit : as.length = limit := h.at_limit (Bool.eq_false_iff.2 hfalse)
    exact hfalse (hended.trans (decide_eq_true (by omega)))
  have hge : n ≤ as.length := of_decide_eq_true (hended.symm.trans htrue)
  have hlen : as.length = n := le_antisymm hle hge
  refine ⟨t, as, by rw [hr, htrue], hlen, ?_⟩
  rw [← hlen]
  exact h.steps

/-- A run until a fault that has met none goes on through STEPs that return Ok. -/
theorem runFrom_of_steps_ok {n : Nat} {pre : List Answer} {s t : State}
    (hpre : ∀ m, endAtFirstFault pre m = false)
    (h : performAll (List.replicate n .step) s = some (t, List.replicate n .ok)) (limit : Nat) :
    runFrom endAtFirstFault (limit + n) pre s = runFrom endAtFirstFault limit (pre ++ List.replicate n .ok) t := by
  induction n generalizing pre s with
  | zero =>
    cases h
    rw [List.replicate_zero, List.append_nil, Nat.add_zero]
  | succ n ih =>
    obtain ⟨u, a, bs, hfirst, hrest, hlist⟩ := performAll_cons.1 h
    obtain ⟨rfl, rfl⟩ := List.cons.inj hlist
    obtain ⟨hu, hok⟩ := perform_step_iff.1 hfirst
    have hpre' : ∀ m, endAtFirstFault (pre ++ [.ok]) m = false := fun m => by
      rw [endAtFirstFault_append, hpre m]
      rfl
    calc runFrom endAtFirstFault (limit + (n + 1)) pre s
        = runFrom endAtFirstFault (limit + n) (pre ++ [.ok]) u := by
          rw [← Nat.add_assoc, runFrom_step (hpre _) hu, ← hok]
      _ = runFrom endAtFirstFault limit (pre ++ [.ok] ++ List.replicate n .ok) t := ih hpre' hrest
      _ = runFrom endAtFirstFault limit (pre ++ List.replicate (n + 1) .ok) t := by
          rw [List.append_assoc, List.singleton_append, ← List.replicate_succ]

/-- Answers that are all Ok do not end a run until a fault. -/
theorem endAtFirstFault_replicate_ok (n : Nat) (m : Memory) : endAtFirstFault (List.replicate n .ok) m = false := by
  simp [endAtFirstFault, isFault]

/-- A run until a fault, after as many STEPs as have returned Ok. -/
theorem run_of_steps_ok {n : Nat} {s t : State}
    (h : performAll (List.replicate n .step) s = some (t, List.replicate n .ok)) (limit : Nat) :
    run endAtFirstFault (limit + n) s = runFrom endAtFirstFault limit (List.replicate n .ok) t :=
  runFrom_of_steps_ok (pre := []) endAtFirstFault_nil h limit

/-- Settles O58: after the STEPs that return Ok the run is at its first fault, or at its limit. -/
theorem runUntilAFaultEndsAtTheFirstOne : Obligations.RunUntilAFaultEndsAtTheFirstOne := by
  refine ⟨fun n limit s t u f hn hsteps hu hf => ?_, fun limit s t hsteps => ?_⟩
  · obtain ⟨k, rfl⟩ : ∃ k, limit = k + 1 + n := ⟨limit - n - 1, by omega⟩
    have hanswer : stepAnswer u.result = .fault f := by rw [hf]; rfl
    have hends : endAtFirstFault (List.replicate n .ok ++ [.fault f]) u.main = true := by
      rw [endAtFirstFault_append, isFault, Bool.or_true]
    rw [run_of_steps_ok hsteps, runFrom_step (endAtFirstFault_replicate_ok n _) hu, hanswer, runFrom_ended hends]
  · have hrun := run_of_steps_ok hsteps 0
    rw [Nat.zero_add, runFrom_zero, endAtFirstFault_replicate_ok] at hrun
    exact hrun

end Sys2Proof.Proofs.Runs
